-- ==== Sys2Proof/Word.lean ====
section
/-! DEFINITION. The word, the byte, the register index and the immediate of the machine (spec/00_scope.md R6, R7). -/

namespace Sys2Proof

/-- R6, R9: a word, a register, a memory cell and an instruction are 32-bit unsigned numbers. -/
abbrev Word := BitVec 32

/-- R22, R42: one element of the input and output streams. -/
abbrev Byte := BitVec 8

/-- R11, R113: a register index is a 3-bit number, so it lies in 0 to 7 by its type. -/
abbrev RegIx := Fin 8

/-- R66: the 25-bit unsigned immediate of format LI. -/
abbrev Imm := BitVec 25

end Sys2Proof
end

