-- ==== Sys2Proof/Config.lean ====
section
/-! DEFINITION. The parameters of spec/00_scope.md R6 that are fixed for the machine, and the one free value.
The OPEN parameters PROG, INPUT and `alloc_ok` are arguments of `Machine.State.start`; the free predicate that
`alloc_ok` may be, `Config.allocOkFree`, is about the state and so stands after it in Machine/State.lean (log entry 1). -/

namespace Sys2Proof

/-- R6 `CODEC_BITS`: the codec's carrier on this hardware (D1). -/
abbrev Config.codecBits : Nat := 32

/-- R6 `OPCODE_BITS`. -/
abbrev Config.opcodeBits : Nat := 4

/-- R6 `OPCODE_LSB`. -/
abbrev Config.opcodeLsb : Nat := 28

/-- R6 `REG_INDEX_BITS`. -/
abbrev Config.regIndexBits : Nat := 3

/-- R6 `IMM_BITS`. -/
abbrev Config.immBits : Nat := 25

/-- R6 `NREGS`. -/
abbrev Config.nregs : Nat := 8

/-- R6 `MAX_SEGMENTS`: the segment table holds at most this many entries (R32, R48, D13). -/
abbrev Config.maxSegments : Nat := 2 ^ 32

/-- R152: the all-ones sentinel that IN writes at the end of the input. -/
def Config.endOfInput : Word := 0xFFFFFFFF

/-- R6 `EXIT_OK`: the exit signal of a run that ends in HALT (R177). -/
def Config.exitOk : Int := 0

/-- FREE VALUE (log entry 5). R177, D19: the exit signal of a fatal error is a non-zero integer that the spec leaves
open. The pair is its sign (true for negative) and its magnitude less one; nothing in Lean can evaluate it. -/
opaque Config.exitFatalRaw : Bool × Nat

/-- R6 `EXIT_FATAL`: any non-zero integer, the same for every cause (R177). -/
def Config.exitFatal : Int :=
  if Config.exitFatalRaw.1 then Int.negSucc Config.exitFatalRaw.2 else Int.ofNat (Config.exitFatalRaw.2 + 1)

end Sys2Proof
end

