-- ==== Sys2Proof/Machine/Codec.lean ====
section
/-! DEFINITION. The bit-field codec (spec/40_codec.md): six pure operations on a carrier of `cw` bits. This hardware
takes `cw = Config.codecBits = 32`; the rules hold for every width (R81). Arguments stand in the spec's order
(word, width, lsb, value) (spec/90_conflicts.md C1). -/

namespace Sys2Proof.Machine.Codec

/-- R88, R89, R94: what an extract or a pack answers. `doesNotFit` is a soft result of a pack (R88); `badField` says
that the field is not inside the carrier and that there is no value (R89). Neither stops the engine (R170). -/
inductive Result (α : Type) where
  | value (v : α)
  | doesNotFit
  | badField
  deriving DecidableEq, Repr

/-- R8 `sext_N`: the signed integer that the pattern `v` of `width` bits denotes (`width` at least 1). -/
def sext (width v : Nat) : Int :=
  if v < 2 ^ (width - 1) then (v : Int) else (v : Int) - 2 ^ width

/-- R8 `tc_N`: the two's-complement pattern of `n` in `width` bits, `n mod 2^width`. -/
def tc (width : Nat) (n : Int) : Nat := (n % 2 ^ width).toNat

/-- R82 `fitss`: does the signed `n` fit in `width` bits; at width 0 only 0 does (D2). -/
def fitss (n : Int) (width : Nat) : Bool :=
  if width = 0 then decide (n = 0)
  else decide (-(2 ^ (width - 1)) ≤ n ∧ n ≤ 2 ^ (width - 1) - 1)

/-- R83 `fitsu`: does the unsigned `n` fit in `width` bits. -/
def fitsu (n width : Nat) : Bool := decide (n < 2 ^ width)

/-- R81: the field `(width, lsb)` lies inside the carrier. -/
def inRange (cw width lsb : Nat) : Bool := decide (lsb + width ≤ cw)

/-- R7, R84: the bits `[lsb, lsb + width)` of `word`, floor(word / 2^lsb) mod 2^width. -/
def fieldBits {cw : Nat} (word : BitVec cw) (width lsb : Nat) : BitVec width :=
  BitVec.ofNat width (word.toNat / 2 ^ lsb)

/-- R84 `getu`: the field as an unsigned number. -/
def getu {cw : Nat} (word : BitVec cw) (width lsb : Nat) : Result Nat :=
  if inRange cw width lsb then .value (fieldBits word width lsb).toNat else .badField

/-- R85 `gets`: the field as a two's-complement number; 0 at width 0 (D4). -/
def gets {cw : Nat} (word : BitVec cw) (width lsb : Nat) : Result Int :=
  if inRange cw width lsb then
    if width = 0 then .value 0 else .value (sext width (fieldBits word width lsb).toNat)
  else .badField

/-- R86, R87: OR `pattern` into the word at `lsb`; the field is not cleared first (D3, R184). -/
def orInto {cw : Nat} (word : BitVec cw) (lsb pattern : Nat) : BitVec cw :=
  word ||| BitVec.ofNat cw (pattern * 2 ^ lsb)

/-- R86 `newu`: OR an unsigned value into a field. `badField` is tested before `doesNotFit` (D5). -/
def newu {cw : Nat} (word : BitVec cw) (width lsb value : Nat) : Result (BitVec cw) :=
  if inRange cw width lsb then
    if fitsu value width then .value (orInto word lsb value) else .doesNotFit
  else .badField

/-- R87 `news`: OR a signed value, masked to `width` bits of two's complement, into a field. -/
def news {cw : Nat} (word : BitVec cw) (width lsb : Nat) (value : Int) : Result (BitVec cw) :=
  if inRange cw width lsb then
    if fitss value width then .value (orInto word lsb (tc width value)) else .doesNotFit
  else .badField

/-- R93: the extraction as two shifts, left by `cw - (lsb + width)` and logically right by `cw - width`. -/
def getuByShifts {cw : Nat} (word : BitVec cw) (width lsb : Nat) : BitVec cw :=
  (word <<< (cw - (lsb + width))) >>> (cw - width)

/-- R93: the signed extraction as two shifts, the right one arithmetic. -/
def getsByShifts {cw : Nat} (word : BitVec cw) (width lsb : Nat) : BitVec cw :=
  (word <<< (cw - (lsb + width))).sshiftRight (cw - width)

end Sys2Proof.Machine.Codec
end

