-- ==== Sys2Proof/Syntax.lean ====
section
/-! DEFINITION. The decoded instruction (spec/41_decoder.md R100 to R104), its tag (R101), its record of present and
absent fields (R100, R104), and the assembler's operand numbers before they are fields (spec/30_encoding.md R72). -/

namespace Sys2Proof

/-- R101: the tag type has 15 values; opcode values 14 and 15 give the one tag `unrecognized`. -/
inductive Tag where
  | cmov | sload | sstore | add | mul | div | nand | halt
  | map | unmap | out | inp | loadp | loadi | unrecognized
  deriving DecidableEq, Repr

/-- R100: one decoded instruction, one constructor per row of spec/opcode_table.json. Every format R3 instruction
holds all three fields `a`, `b`, `c`, those its effect does not use included (R67, R103); `loadi` holds `a` and `imm`
and has no `b` and no `c` (R102, R104). Bits 27:9 of a format R3 word are no field (R67) and are not kept. -/
inductive Instr where
  /-- CMOV (R130). -/
  | cmov (a b c : RegIx)
  /-- SLOAD (R140). -/
  | sload (a b c : RegIx)
  /-- SSTORE (R141). -/
  | sstore (a b c : RegIx)
  /-- ADD (R131). -/
  | add (a b c : RegIx)
  /-- MUL (R132). -/
  | mul (a b c : RegIx)
  /-- DIV (R133). -/
  | div (a b c : RegIx)
  /-- NAND (R134). -/
  | nand (a b c : RegIx)
  /-- HALT (R150). -/
  | halt (a b c : RegIx)
  /-- MAP (R142). -/
  | map (a b c : RegIx)
  /-- UNMAP (R143). -/
  | unmap (a b c : RegIx)
  /-- OUT (R151). -/
  | out (a b c : RegIx)
  /-- IN (R152). -/
  | inp (a b c : RegIx)
  /-- LOADP (R153). -/
  | loadp (a b c : RegIx)
  /-- LOADI (R135). -/
  | loadi (a : RegIx) (imm : Imm)
  /-- UNRECOGNIZED (R154): opcode values 14 and 15; which of the two is not kept (R101). -/
  | unrecognized (a b c : RegIx)
  deriving DecidableEq, Repr

/-- R101: the tag of a decoded instruction. -/
def Instr.tag : Instr → Tag
  | .cmov _ _ _ => .cmov
  | .sload _ _ _ => .sload
  | .sstore _ _ _ => .sstore
  | .add _ _ _ => .add
  | .mul _ _ _ => .mul
  | .div _ _ _ => .div
  | .nand _ _ _ => .nand
  | .halt _ _ _ => .halt
  | .map _ _ _ => .map
  | .unmap _ _ _ => .unmap
  | .out _ _ _ => .out
  | .inp _ _ _ => .inp
  | .loadp _ _ _ => .loadp
  | .loadi _ _ => .loadi
  | .unrecognized _ _ _ => .unrecognized

/-- R64: the opcode value of a tag; `unrecognized` has two, 14 and 15, and this is the lower (log entry 9). -/
def Tag.opcode : Tag → Nat
  | .cmov => 0
  | .sload => 1
  | .sstore => 2
  | .add => 3
  | .mul => 4
  | .div => 5
  | .nand => 6
  | .halt => 7
  | .map => 8
  | .unmap => 9
  | .out => 10
  | .inp => 11
  | .loadp => 12
  | .loadi => 13
  | .unrecognized => 14

/-- R100: the decoder's result as the spec's record; a field that is not present is `none`, never zero (R104). -/
structure DecodedRecord where
  tag : Tag
  a : RegIx
  b : Option RegIx
  c : Option RegIx
  imm : Option Imm
  deriving DecidableEq, Repr

/-- R100: the record of a format R3 instruction. -/
def DecodedRecord.r3 (t : Tag) (a b c : RegIx) : DecodedRecord :=
  { tag := t, a := a, b := some b, c := some c, imm := none }

/-- R100: the record of the format LI instruction. -/
def DecodedRecord.li (a : RegIx) (imm : Imm) : DecodedRecord :=
  { tag := .loadi, a := a, b := none, c := none, imm := some imm }

/-- R100, R104: the record a decoded instruction is. -/
def Instr.record : Instr → DecodedRecord
  | .cmov a b c => .r3 .cmov a b c
  | .sload a b c => .r3 .sload a b c
  | .sstore a b c => .r3 .sstore a b c
  | .add a b c => .r3 .add a b c
  | .mul a b c => .r3 .mul a b c
  | .div a b c => .r3 .div a b c
  | .nand a b c => .r3 .nand a b c
  | .halt a b c => .r3 .halt a b c
  | .map a b c => .r3 .map a b c
  | .unmap a b c => .r3 .unmap a b c
  | .out a b c => .r3 .out a b c
  | .inp a b c => .r3 .inp a b c
  | .loadp a b c => .r3 .loadp a b c
  | .loadi a imm => .li a imm
  | .unrecognized a b c => .r3 .unrecognized a b c

/-- R72: an instruction as the assembler meets it, with plain numbers for operands: the arguments of `encode_R3`
and of `encode_LI`. A number here may be too large for its field; `AsmForm.wf` is the check. -/
inductive AsmForm where
  | r3 (op a b c : Nat)
  | li (a imm : Nat)
  deriving DecidableEq, Repr

end Sys2Proof
end

