-- ==== Sys2Proof/WellFormed.lean ====
section
/-! DEFINITION. Which operand numbers have an encoding (spec/30_encoding.md R72), and the same check on a decoded
instruction. The field types of `Instr` hold exactly the numbers that pass, so every `Instr` is well formed
(`Laws.instr_wellFormed`); an ill-formed term exists only before the fields are built, as an `AsmForm`. -/

namespace Sys2Proof

/-- R72: "op in 0..12 (or 14, 15)", the opcode values of format R3. -/
def AsmForm.opOk (op : Nat) : Bool := decide (op ≤ 15 ∧ op ≠ 13)

/-- R72: a register operand lies in 0 to 7. -/
def AsmForm.regOk (r : Nat) : Bool := decide (r < Config.nregs)

/-- R72: "An immediate above 2^25 - 1 does not fit ... and has no encoding." -/
def AsmForm.immOk (imm : Nat) : Bool := decide (imm < 2 ^ Config.immBits)

/-- R72: the operand numbers that have an encoding. -/
def AsmForm.wf : AsmForm → Bool
  | .r3 op a b c => AsmForm.opOk op && AsmForm.regOk a && AsmForm.regOk b && AsmForm.regOk c
  | .li a imm => AsmForm.regOk a && AsmForm.immOk imm

/-- The operand numbers of a decoded instruction, as the assembler would be given them. -/
def Instr.asm (i : Instr) : AsmForm :=
  match i with
  | .loadi a imm => .li a.val imm.toNat
  | .cmov a b c | .sload a b c | .sstore a b c | .add a b c | .mul a b c | .div a b c | .nand a b c
  | .halt a b c | .map a b c | .unmap a b c | .out a b c | .inp a b c | .loadp a b c
  | .unrecognized a b c => .r3 i.tag.opcode a.val b.val c.val

/-- A decoded instruction is well formed when its operand numbers have an encoding (R72). -/
abbrev Instr.WellFormed (i : Instr) : Prop := i.asm.wf = true

end Sys2Proof
end

