-- ==== Sys2Proof/Decode.lean ====
section
/-! DEFINITION. The decoder (spec/41_decoder.md) on a word and on big-endian bytes, and the encoder
(spec/30_encoding.md R72). Decoding a word is total: no word is rejected (R105). -/

namespace Sys2Proof

open Sys2Proof.Machine.Codec (fieldBits)

/-- R101 `TAG`: defined on all 16 opcode values; the last row is that of 14 and of 15. -/
def tagOf (op : Fin 16) : Tag :=
  match op.val with
  | 0 => .cmov
  | 1 => .sload
  | 2 => .sstore
  | 3 => .add
  | 4 => .mul
  | 5 => .div
  | 6 => .nand
  | 7 => .halt
  | 8 => .map
  | 9 => .unmap
  | 10 => .out
  | 11 => .inp
  | 12 => .loadp
  | 13 => .loadi
  | _ => .unrecognized

/-- R61: the opcode field, bits 31:28. -/
def opcodeField (w : Word) : Fin 16 := (fieldBits w Config.opcodeBits Config.opcodeLsb).toFin

/-- R62: field `a` of format R3, bits 8:6. -/
def fieldA (w : Word) : RegIx := (fieldBits w Config.regIndexBits 6).toFin

/-- R62: field `b` of format R3, bits 5:3. -/
def fieldB (w : Word) : RegIx := (fieldBits w Config.regIndexBits 3).toFin

/-- R62: field `c` of format R3, bits 2:0. -/
def fieldC (w : Word) : RegIx := (fieldBits w Config.regIndexBits 0).toFin

/-- R63: field `a` of format LI, bits 27:25. -/
def fieldALi (w : Word) : RegIx := (fieldBits w Config.regIndexBits 25).toFin

/-- R63, R66: the immediate of format LI, bits 24:0, unsigned. -/
def fieldImm (w : Word) : Imm := fieldBits w Config.immBits 0

/-- R100 `decode`: the instruction of a word; total, no validation (R105), a function of the word alone (R106). -/
def decode (w : Word) : Instr :=
  match tagOf (opcodeField w) with
  | .cmov => .cmov (fieldA w) (fieldB w) (fieldC w)
  | .sload => .sload (fieldA w) (fieldB w) (fieldC w)
  | .sstore => .sstore (fieldA w) (fieldB w) (fieldC w)
  | .add => .add (fieldA w) (fieldB w) (fieldC w)
  | .mul => .mul (fieldA w) (fieldB w) (fieldC w)
  | .div => .div (fieldA w) (fieldB w) (fieldC w)
  | .nand => .nand (fieldA w) (fieldB w) (fieldC w)
  | .halt => .halt (fieldA w) (fieldB w) (fieldC w)
  | .map => .map (fieldA w) (fieldB w) (fieldC w)
  | .unmap => .unmap (fieldA w) (fieldB w) (fieldC w)
  | .out => .out (fieldA w) (fieldB w) (fieldC w)
  | .inp => .inp (fieldA w) (fieldB w) (fieldC w)
  | .loadp => .loadp (fieldA w) (fieldB w) (fieldC w)
  | .loadi => .loadi (fieldALi w) (fieldImm w)
  | .unrecognized => .unrecognized (fieldA w) (fieldB w) (fieldC w)

/-- R40, R183: the word of four bytes, the most significant first. -/
def wordOfBytes (b0 b1 b2 b3 : Byte) : Word :=
  BitVec.ofNat 32 (b0.toNat * 2 ^ 24 + b1.toNat * 2 ^ 16 + b2.toNat * 2 ^ 8 + b3.toNat)

/-- R40, R183: the four bytes of a word, the most significant first. -/
def bytesOfWord (w : Word) : List Byte :=
  [fieldBits w 8 24, fieldBits w 8 16, fieldBits w 8 8, fieldBits w 8 0]

/-- Why bytes hold no instruction. -/
inductive DecodeError where
  /-- Fewer than the four bytes of one word (R60) are left. Safe: the machine itself fetches whole words. -/
  | truncated
  deriving DecidableEq, Repr

/-- The decoder on a program's bytes as a file stores them (R183): the instruction and the bytes after it. -/
def decodeBytes : List Byte → Except DecodeError (Instr × List Byte)
  | b0 :: b1 :: b2 :: b3 :: rest => .ok (decode (wordOfBytes b0 b1 b2 b3), rest)
  | _ => .error .truncated

/-- The decoder on a row of spec/opcode_table.json: the instruction whose bits are `w`. Every instruction has 32
bits (R60), so a longer one is none of this machine's. -/
def decodeTableWord (nbits w : Nat) : Option Instr :=
  if nbits ≤ 32 then some (decode (BitVec.ofNat 32 (w % 2 ^ nbits))) else none

/-- R72 `encode_R3`, ignored bits 0. -/
def encodeR3 (op a b c : Nat) : Word := BitVec.ofNat 32 (op * 2 ^ 28 + a * 2 ^ 6 + b * 2 ^ 3 + c)

/-- R72 `encode_LI`. -/
def encodeLI (a imm : Nat) : Word := BitVec.ofNat 32 (13 * 2 ^ 28 + a * 2 ^ 25 + imm)

/-- R72: the word of operand numbers; `none` where there is no encoding. -/
def AsmForm.encode (f : AsmForm) : Option Word :=
  if f.wf then
    match f with
    | .r3 op a b c => some (encodeR3 op a b c)
    | .li a imm => some (encodeLI a imm)
  else none

/-- R72: the word of a decoded instruction, with bits 27:9 of format R3 written as 0 (R67) and opcode 14 for
`unrecognized` (log entry 9). -/
def encode : Instr → Word
  | .cmov a b c => encodeR3 0 a.val b.val c.val
  | .sload a b c => encodeR3 1 a.val b.val c.val
  | .sstore a b c => encodeR3 2 a.val b.val c.val
  | .add a b c => encodeR3 3 a.val b.val c.val
  | .mul a b c => encodeR3 4 a.val b.val c.val
  | .div a b c => encodeR3 5 a.val b.val c.val
  | .nand a b c => encodeR3 6 a.val b.val c.val
  | .halt a b c => encodeR3 7 a.val b.val c.val
  | .map a b c => encodeR3 8 a.val b.val c.val
  | .unmap a b c => encodeR3 9 a.val b.val c.val
  | .out a b c => encodeR3 10 a.val b.val c.val
  | .inp a b c => encodeR3 11 a.val b.val c.val
  | .loadp a b c => encodeR3 12 a.val b.val c.val
  | .loadi a imm => encodeLI a.val imm.toNat
  | .unrecognized a b c => encodeR3 14 a.val b.val c.val

end Sys2Proof
end

