-- ==== Sys2Proof/Machine/State.lean ====
section
/-! DEFINITION. The machine's state (spec/10_state.md R10) as plain data, the causes of a fatal error
(spec/60_exceptions.md R161), the reset state (spec/70_reset_and_hazards.md R180), and one update per field. -/

namespace Sys2Proof.Machine

/-- R161: the ten causes of a fatal error, in the order of their codes. What a diagnostic may carry beside the cause
is kept nowhere in the machine (R161, R178). -/
inductive FatalCause where
  /-- Code 1: an opcode of 14 or 15 was dispatched (R162). -/
  | unrecognizedOpcode
  /-- Code 2: `pc` is not below the length of segment 0 (R163). -/
  | fetchOutOfBounds
  /-- Code 3: a segment address at or past the end of the table (R164). -/
  | segAddrOutOfRange
  /-- Code 4: a word index at or past the length of its segment (R164). -/
  | segIndexOutOfRange
  /-- Code 5: DIV by a register that holds 0 (R165). -/
  | divideByZero
  /-- Code 6: OUT of a value above 255 (R166). -/
  | outputOutOfRange
  /-- Code 7: UNMAP of an address that is out of range or not live (R167). -/
  | freeInvalid
  /-- Code 8: LOADP from a freed address (R168, D17). -/
  | segNotLive
  /-- Code 9: MAP where `alloc_ok` refuses or the table is full (R168, D13). -/
  | resourceExhausted
  /-- Code 10: `get` or `set` with an index above 7 (R169); no instruction word can cause it. -/
  | regIndexOutOfRange
  deriving DecidableEq, Repr

/-- R161: the code of a cause. -/
def FatalCause.code : FatalCause → Nat
  | .unrecognizedOpcode => 1
  | .fetchOutOfBounds => 2
  | .segAddrOutOfRange => 3
  | .segIndexOutOfRange => 4
  | .divideByZero => 5
  | .outputOutOfRange => 6
  | .freeInvalid => 7
  | .segNotLive => 8
  | .resourceExhausted => 9
  | .regIndexOutOfRange => 10

/-- R21 `STATUS`. -/
inductive Status where
  | running
  | halted
  | fatal (cause : FatalCause)
  deriving DecidableEq, Repr

/-- R18: one entry of the segment table. `len` is the number of words of `data`; `cells` lists the words of `data`
that are not `Cells.unlisted`, as (index, word) pairs with rising indices (log entry 2). -/
structure Segment where
  live : Bool
  len : Nat
  cells : List (Nat × Word)
  deriving DecidableEq, Repr

/-- R32: what a word of a live segment reads as when it is not listed: the zero of a new segment. -/
abbrev Cells.unlisted : Word := 0

/-- R18, R33: a freed entry, its content an empty block. -/
def Segment.freed : Segment := { live := false, len := 0, cells := [] }

/-- R32: a new segment of `size` words, each 0. -/
def Segment.zeroed (size : Nat) : Segment := { live := true, len := size, cells := [] }

/-- The listed words of a sequence whose first word has index `i`. -/
def Cells.ofWordsFrom (i : Nat) : List Word → List (Nat × Word)
  | [] => []
  | w :: ws => if w = Cells.unlisted then ofWordsFrom (i + 1) ws else (i, w) :: ofWordsFrom (i + 1) ws

/-- R20: a live segment that holds a sequence of words. -/
def Segment.ofWords (ws : List Word) : Segment :=
  { live := true, len := ws.length, cells := Cells.ofWordsFrom 0 ws }

/-- The segment manager's state: `SEG` (R18) and `POOL` (R19, top first). -/
structure Memory where
  table : List Segment
  pool : List Nat
  deriving DecidableEq, Repr

/-- R6, R32, D13: the OPEN parameter `alloc_ok`, a predicate of the state and the size, named as plain data; which
predicate a name stands for is `State.allocOk` (log entry 1). -/
inductive AllocParam where
  /-- The spec's default "always". -/
  | always
  /-- A machine with room for `words` words. -/
  | within (words : Nat)
  /-- Any predicate: the free one with this number, `Config.allocOkFree`. -/
  | free (number : Nat)
  deriving DecidableEq, Repr

/-- R10: the complete state. `allocParam` is the model's own field, no state of the spec: the OPEN parameter
`alloc_ok`, which the reset gives and no step changes (log entry 1). -/
structure State where
  regs : Vector Word 8
  pc : Nat
  mem : Memory
  status : Status
  out : List Byte
  inp : List Byte
  allocParam : AllocParam
  deriving DecidableEq, Repr

/-- No step of this machine ends in a fault: each stop the spec describes is a value of `STATUS` (R160), reached by
a next state (log entry 6). The type is closed and empty. -/
inductive Fault where
  deriving DecidableEq, Repr

/-- Why a step has no meaning. -/
inductive Refusal where
  /-- The instruction has no meaning in this model. Raised by no arm of `exec`: every instruction has its meaning.
  Safe: it stops where the hardware goes on. -/
  | notModelled (mnemonic : String)
  deriving DecidableEq, Repr

/-- R180, R181: the state right after a reset with the program `prog`, the input `input` and the parameter `alloc_ok` (R6). -/
def State.start (prog : List Word) (input : List Byte) (allocParam : AllocParam) : State :=
  { regs := Vector.replicate 8 0
    pc := 0
    mem := { table := [Segment.ofWords prog], pool := [] }
    status := .running
    out := []
    inp := input
    allocParam := allocParam }

/-- R180 with PROG and INPUT empty, since a program and an input come from outside the machine (log entry 3), and with
the spec's default for `alloc_ok` (R6). -/
def State.reset : State := State.start [] [] .always

/-- Register `r` takes `v` (R112); every other field stays. -/
def State.setReg (s : State) (r : RegIx) (v : Word) : State := { s with regs := s.regs.set r v }

/-- Register `r` (R111). -/
def State.getReg (s : State) (r : RegIx) : Word := s.regs[r]

/-- `pc` takes `p` (R14). -/
def State.setPc (s : State) (p : Nat) : State := { s with pc := p }

/-- `SEG` and `POOL` take the parts of `m`. -/
def State.setMem (s : State) (m : Memory) : State := { s with mem := m }

/-- `STATUS` takes `st` (R21). -/
def State.setStatus (s : State) (st : Status) : State := { s with status := st }

/-- `OUT` takes `bs` (R22). -/
def State.setOut (s : State) (bs : List Byte) : State := { s with out := bs }

/-- `IN` takes `bs` (R22). -/
def State.setInp (s : State) (bs : List Byte) : State := { s with inp := bs }

/-- The parameter `alloc_ok` becomes `p` (log entry 1); no step does this. -/
def State.setAllocParam (s : State) (p : AllocParam) : State := { s with allocParam := p }

end Sys2Proof.Machine

namespace Sys2Proof

/-- FREE VALUE (log entry 1). R6, D13: `alloc_ok(state, size)` is left open; these are predicates of which nothing is
known, one for each number. -/
opaque Config.allocOkFree : Nat → Machine.State → Nat → Bool

end Sys2Proof
end

