-- ==== Sys2Proof/Machine/Ops.lean ====
section
/-! DEFINITION. The named operations over registers (spec/42_register_file.md), segments (spec/20_memory.md), the
streams (spec/10_state.md R22), and the fatal error (spec/60_exceptions.md R160). -/

namespace Sys2Proof.Machine

/-- The result of a meaning. -/
abbrev Result := Host.Outcome State Fault Refusal

/-! ### The fatal error -/

/-- R160, R171: `raise Fatal(cause)`. The instruction's effect is abandoned, `STATUS` takes `Fatal(cause)`, nothing
else changes: no state is saved, no mode changes and control goes to no handler (R174). The `pc` has been incremented
before dispatch (R123). There is no return from it (R175); only a reset, `State.start`, leaves it (R181). -/
def raise (cause : FatalCause) (s : State) : Result := .next (s.setStatus (.fatal cause))

/-- R160: go on with the value of a checked operation, or raise its cause with none of the effect done. -/
def attempt {α : Type} (r : Except FatalCause α) (s : State) (k : α → Result) : Result :=
  match r with
  | .ok v => k v
  | .error cause => raise cause s

/-- R177: the exit signal of a run that has ended; none while it is running. -/
def State.exitSignal (s : State) : Option Int :=
  match s.status with
  | .running => none
  | .halted => some Config.exitOk
  | .fatal _ => some Config.exitFatal

/-- R127: what can be observed of a run: `OUT` as it stands, which for an unfinished run is all, and the exit signal
once the run has ended. -/
def State.observable (s : State) : List Byte × Option Int := (s.out, s.exitSignal)

/-! ### The register file with a wide index -/

/-- R113: `get` with a natural number for its index; 8 or more is a fatal error, never a wrap. -/
def getWide (s : State) (i : Nat) : Except FatalCause Word :=
  if h : i < 8 then .ok (s.getReg ⟨i, h⟩) else .error .regIndexOutOfRange

/-- R113: `set` with a natural number for its index; 8 or more is a fatal error, never a silent no-op. -/
def setWide (s : State) (i : Nat) (v : Word) : Except FatalCause State :=
  if h : i < 8 then .ok (s.setReg ⟨i, h⟩ v) else .error .regIndexOutOfRange

/-! ### The words of one segment -/

/-- The word at index `i` among listed words; an index that is not listed reads as `Cells.unlisted`. -/
def Cells.read : List (Nat × Word) → Nat → Word
  | [], _ => Cells.unlisted
  | (k, w) :: t, i => if i = k then w else Cells.read t i

/-- List `v` at index `i`, before the first greater index. -/
def Cells.insert : List (Nat × Word) → Nat → Word → List (Nat × Word)
  | [], i, v => [(i, v)]
  | (k, w) :: t, i, v =>
    if i < k then (i, v) :: (k, w) :: t
    else if i = k then (i, v) :: t
    else (k, w) :: Cells.insert t i v

/-- The word at index `i` becomes `v`; the value an unlisted index reads as removes the entry. -/
def Cells.write (c : List (Nat × Word)) (i : Nat) (v : Word) : List (Nat × Word) :=
  if v = Cells.unlisted then c.filter (fun p => decide (p.1 ≠ i)) else Cells.insert c i v

/-- R18, R34: the spec's `data` of a segment, word by word. -/
def Segment.data (g : Segment) : List Word := (List.range g.len).map (Cells.read g.cells)

/-! ### The segment manager -/

/-- R31: the entry at address `s`; an address past the table reads as a freed entry (its length is 0). -/
def Memory.entry (m : Memory) (s : Nat) : Segment := m.table.getD s Segment.freed

/-- R38 `word_count`: the length of segment `s`. -/
def Memory.wordCount (m : Memory) (s : Nat) : Nat := (m.entry s).len

/-- R34 `read_word`: the address check first, then the index check (R172). -/
def memRead (m : Memory) (s i : Nat) : Except FatalCause Word :=
  match m.table[s]? with
  | none => .error .segAddrOutOfRange
  | some g => if i < g.len then .ok (Cells.read g.cells i) else .error .segIndexOutOfRange

/-- R35 `write_word`: the checks of a read, then one word of one segment changes. -/
def memWrite (m : Memory) (s i : Nat) (v : Word) : Except FatalCause Memory :=
  match m.table[s]? with
  | none => .error .segAddrOutOfRange
  | some g =>
    if i < g.len then .ok { m with table := m.table.set s { g with cells := Cells.write g.cells i v } }
    else .error .segIndexOutOfRange

/-- R32 `allocate`: `permitted` is what `alloc_ok` answers. The pool's top is reused before the table grows, and the
table grows to at most `MAX_SEGMENTS` entries, whatever `alloc_ok` answers (log entry 13). Answers the memory after and the address. -/
def allocate (permitted : Bool) (m : Memory) (size : Nat) : Except FatalCause (Memory × Nat) :=
  if permitted = false then .error .resourceExhausted
  else
    match m.pool with
    | s :: rest => .ok ({ table := m.table.set s (Segment.zeroed size), pool := rest }, s)
    | [] =>
      if Config.maxSegments ≤ m.table.length then .error .resourceExhausted
      else .ok ({ table := m.table ++ [Segment.zeroed size], pool := [] }, m.table.length)

/-- R33 `free`: the entry becomes an empty block and its address goes on top of the pool. Address 0 is no
exception (D18). -/
def free (m : Memory) (s : Nat) : Except FatalCause Memory :=
  match m.table[s]? with
  | none => .error .freeInvalid
  | some g =>
    if g.live then .ok { table := m.table.set s Segment.freed, pool := s :: m.pool } else .error .freeInvalid

/-- R36, R37 `replace_zero`: segment 0 becomes a live copy of segment `s`. -/
def replaceZero (m : Memory) (s : Nat) : Except FatalCause Memory :=
  match m.table[s]? with
  | none => .error .segAddrOutOfRange
  | some g =>
    if g.live then .ok { m with table := m.table.set 0 { live := true, len := g.len, cells := g.cells } }
    else .error .segNotLive

/-- R38, R122: the word at `(0, pc)`; any failure of the read is `FetchOutOfBounds` (R163). -/
def fetchWord (s : State) : Except FatalCause Word :=
  match memRead s.mem 0 s.pc with
  | .ok w => .ok w
  | .error _ => .error .fetchOutOfBounds

/-- R123: the increment that comes before dispatch. -/
def State.advance (s : State) : State := s.setPc (s.pc + 1)

/-- R21: the machine answers itself once its run has ended: no state changes (log entry 6). -/
def ended (s : State) : Result := .next s

/-! ### The allocation parameter and the streams -/

/-- R31: the number of words in all segments together. -/
def Memory.totalWords (m : Memory) : Nat := (m.table.map Segment.len).sum

/-- R6, R32 `alloc_ok(state, size)`: whether an allocation of `size` words succeeds in the state `s` (log entry 1). -/
def State.allocOk (s : State) (size : Nat) : Bool :=
  match s.allocParam with
  | .always => true
  | .within words => decide (s.mem.totalWords + size ≤ words)
  | .free number => Config.allocOkFree number s size

/-- R22, R151 `OutByte`: append one byte to `OUT`. -/
def State.outByte (s : State) (b : Byte) : State := s.setOut (s.out ++ [b])

/-- R152 `InByte`: the next byte of `IN`, or none at its end, and the state with that byte consumed (D20). -/
def State.inByte (s : State) : Option Byte × State :=
  match s.inp with
  | [] => (none, s)
  | b :: rest => (some b, s.setInp rest)

/-! ### Placing a word of the program -/

/-- The state with the word `w` where the next fetch reads: index `pc` of segment 0, which is live and long enough,
in a machine that is running (log entry 3). -/
def placeFetchWord (s : State) (w : Word) : State :=
  let g := s.mem.entry 0
  let g' : Segment := { live := true, len := max g.len (s.pc + 1), cells := Cells.write g.cells s.pc w }
  { s with
    status := .running
    mem := { table := g' :: s.mem.table.tail, pool := s.mem.pool.filter (fun a => decide (a ≠ 0)) } }

end Sys2Proof.Machine
end

