-- ==== Sys2Proof/Machine/Operands.lean ====
section
/-! DEFINITION. How operands are formed and what the arithmetic computes (spec/44_arithmetic_and_move.md R136). There
are two operand forms: a register named by a 3-bit field, and the 25-bit immediate of LOADI (spec/30_encoding.md R66).
Every register read sees the value from before the instruction (spec/42_register_file.md R116). -/

namespace Sys2Proof.Machine

/-- R8, R30: a register as a segment address, a word index, a size or a jump target: its unsigned value. -/
def State.regNat (s : State) (r : RegIx) : Nat := (s.getReg r).toNat

/-- R66, R135: the immediate zero-extended to a word. -/
def zextImm (imm : Imm) : Word := imm.setWidth 32

/-- R152: a byte zero-extended to a word. -/
def zextByte (b : Byte) : Word := b.setWidth 32

/-- R151: the byte a register holds when its value is at most 255. -/
def byteOf (w : Word) : Byte := w.setWidth 8

/-- R131: (x + y) mod 2^32. -/
def addWords (x y : Word) : Word := BitVec.ofNat 32 (x.toNat + y.toNat)

/-- R132: (x * y) mod 2^32. -/
def mulWords (x y : Word) : Word := BitVec.ofNat 32 (x.toNat * y.toNat)

/-- R133: the floor quotient of unsigned numbers; used only with `y` not 0. -/
def divWords (x y : Word) : Word := BitVec.ofNat 32 (x.toNat / y.toNat)

/-- R134: NOT_32 (x AND y). -/
def nandWords (x y : Word) : Word := ~~~(x &&& y)

/-- R142: a segment address as a word; it is below 2^32 by `MAX_SEGMENTS`. -/
def wordOfAddress (s : Nat) : Word := BitVec.ofNat 32 s

end Sys2Proof.Machine
end

