-- ==== Sys2Proof/Machine/Flags.lean ====
section
/-! DEFINITION. There are no flags, condition codes or predicate registers (spec/10_state.md R16): no instruction
records a carry, an overflow, a zero or a sign. What stands here is all that an instruction tests: three conditions on
the value of a general register. -/

namespace Sys2Proof.Machine

/-- R130: CMOV's condition: the whole 32-bit value is not zero. -/
def isNonZero (w : Word) : Bool := decide (w ≠ 0)

/-- R133: DIV's divisor is zero. -/
def isZero (w : Word) : Bool := decide (w = 0)

/-- R151: the value is a byte's, at most 255. -/
def isByte (w : Word) : Bool := decide (w.toNat ≤ 255)

end Sys2Proof.Machine
end

