-- ==== Sys2Proof/Machine/Arithmetic.lean ====
section
/-! DEFINITION. CMOV, ADD, MUL, DIV, NAND, LOADI (spec/44_arithmetic_and_move.md). -/

namespace Sys2Proof.Machine

/-- R130. -/
def execCmov (a b c : RegIx) (s : State) : Result :=
  if isNonZero (s.getReg c) then .next (s.setReg a (s.getReg b)) else .next s

/-- R131. -/
def execAdd (a b c : RegIx) (s : State) : Result :=
  .next (s.setReg a (addWords (s.getReg b) (s.getReg c)))

/-- R132. -/
def execMul (a b c : RegIx) (s : State) : Result :=
  .next (s.setReg a (mulWords (s.getReg b) (s.getReg c)))

/-- R133, R165: the divisor is checked before the write. -/
def execDiv (a b c : RegIx) (s : State) : Result :=
  if isZero (s.getReg c) then raise .divideByZero s
  else .next (s.setReg a (divWords (s.getReg b) (s.getReg c)))

/-- R134. -/
def execNand (a b c : RegIx) (s : State) : Result :=
  .next (s.setReg a (nandWords (s.getReg b) (s.getReg c)))

/-- R135. -/
def execLoadi (a : RegIx) (imm : Imm) (s : State) : Result :=
  .next (s.setReg a (zextImm imm))

end Sys2Proof.Machine
end

