-- ==== Sys2Proof/Machine/Control.lean ====
section
/-! DEFINITION. HALT, OUT, IN, LOADP and UNRECOGNIZED (spec/46_control_and_io.md). -/

namespace Sys2Proof.Machine

/-- R150: `STATUS` takes `Halted`; the fields are ignored. -/
def execHalt (_a _b _c : RegIx) (s : State) : Result := .next (s.setStatus .halted)

/-- R151, R166: the range check comes before the byte is appended; the value is never truncated. -/
def execOut (_a _b c : RegIx) (s : State) : Result :=
  if isByte (s.getReg c) then .next (s.outByte (byteOf (s.getReg c))) else raise .outputOutOfRange s

/-- R152: the next byte zero-extended, or the sentinel at the end of the input (also on a read failure, D20). -/
def execInp (_a _b c : RegIx) (s : State) : Result :=
  match s.inByte with
  | (some v, s') => .next (s'.setReg c (zextByte v))
  | (none, s') => .next (s'.setReg c Config.endOfInput)

/-- R153: with x[b] not 0, segment 0 becomes a copy of segment x[b]; `pc` takes x[c], which is not checked. -/
def execLoadp (_a b c : RegIx) (s : State) : Result :=
  if isNonZero (s.getReg b) then
    attempt (replaceZero s.mem (s.regNat b)) s (fun m => .next ((s.setMem m).setPc (s.regNat c)))
  else .next (s.setPc (s.regNat c))

/-- R154, R162: the fatal error of opcode values 14 and 15. -/
def execUnrecognized (_a _b _c : RegIx) (s : State) : Result := raise .unrecognizedOpcode s

end Sys2Proof.Machine
end

