-- ==== Sys2Proof/Machine/Segments.lean ====
section
/-! DEFINITION. SLOAD, SSTORE, MAP, UNMAP (spec/45_segment_memory_ops.md). -/

namespace Sys2Proof.Machine

/-- R140: segment x[b], index x[c]. -/
def execSload (a b c : RegIx) (s : State) : Result :=
  attempt (memRead s.mem (s.regNat b) (s.regNat c)) s (fun w => .next (s.setReg a w))

/-- R141: segment x[a], index x[b]; no register is written. -/
def execSstore (a b c : RegIx) (s : State) : Result :=
  attempt (memWrite s.mem (s.regNat a) (s.regNat b) (s.getReg c)) s (fun m => .next (s.setMem m))

/-- R142: the size x[c] is read before x[b] takes the address; `a` is not used (R67). -/
def execMap (_a b c : RegIx) (s : State) : Result :=
  attempt (allocate (s.allocOk (s.regNat c)) s.mem (s.regNat c)) s
    (fun r => .next ((s.setMem r.1).setReg b (wordOfAddress r.2)))

/-- R143: free the address x[c]; no register is written; `a` and `b` are not used (R67). -/
def execUnmap (_a _b c : RegIx) (s : State) : Result :=
  attempt (free s.mem (s.regNat c)) s (fun m => .next (s.setMem m))

end Sys2Proof.Machine
end

