-- ==== Sys2Proof/Machine/Dispatch.lean ====
section
/-! DEFINITION. The dispatch of spec/43_engine_cycle.md R124: one arm per tag, no default. The state is the one after
the increment of `pc` (R123). -/

namespace Sys2Proof.Machine

def exec (i : Instr) (s : State) : Host.Outcome State Fault Refusal :=
  match i with
  | .cmov a b c => Sys2Proof.Machine.execCmov a b c s
  | .sload a b c => Sys2Proof.Machine.execSload a b c s
  | .sstore a b c => Sys2Proof.Machine.execSstore a b c s
  | .add a b c => Sys2Proof.Machine.execAdd a b c s
  | .mul a b c => Sys2Proof.Machine.execMul a b c s
  | .div a b c => Sys2Proof.Machine.execDiv a b c s
  | .nand a b c => Sys2Proof.Machine.execNand a b c s
  | .halt a b c => Sys2Proof.Machine.execHalt a b c s
  | .map a b c => Sys2Proof.Machine.execMap a b c s
  | .unmap a b c => Sys2Proof.Machine.execUnmap a b c s
  | .out a b c => Sys2Proof.Machine.execOut a b c s
  | .inp a b c => Sys2Proof.Machine.execInp a b c s
  | .loadp a b c => Sys2Proof.Machine.execLoadp a b c s
  | .loadi a imm => Sys2Proof.Machine.execLoadi a imm s
  | .unrecognized a b c => Sys2Proof.Machine.execUnrecognized a b c s

end Sys2Proof.Machine
end

