-- ==== Sys2Proof/Machine/Step.lean ====
section
/-! DEFINITION. One step of the engine (spec/43_engine_cycle.md R121), and where a step fetches its next word. -/

namespace Sys2Proof.Machine

/-- R121: fetch, decode, increment, dispatch, while `STATUS` is `Running`; a failed fetch raises without the
increment (R163). Once the run has ended nothing changes (R21). -/
def step (s : State) : Host.Outcome State Fault Refusal :=
  match s.status with
  | .running => attempt (fetchWord s) s (fun w => exec (decode w) s.advance)
  | .halted => ended s
  | .fatal _ => ended s

/-- The state whose next step fetches and runs the instruction whose `nbits` bits are `w` (log entry 3). -/
def State.withFetchWord (s : State) (nbits w : Nat) : State :=
  placeFetchWord s (BitVec.ofNat 32 (w % 2 ^ nbits))

end Sys2Proof.Machine
end

