-- ==== Sys2Proof/Machine/Assembler.lean ====
section
/-! DEFINITION. The assembler's side of the encoding: instruction words built by the codec's packs
(spec/30_encoding.md R72) and the text of the spec's own syntax (R70). No step of the machine uses it. -/

namespace Sys2Proof.Machine

/-- Go on with a pack's word; `doesNotFit` and `badField` are passed on (R88, R89). -/
def Codec.Result.andThen {α β : Type} (r : Codec.Result α) (k : α → Codec.Result β) : Codec.Result β :=
  match r with
  | .value v => k v
  | .doesNotFit => .doesNotFit
  | .badField => .badField

/-- R72: the fields of format R3 packed into the zero word. -/
def packR3 (op a b c : Nat) : Codec.Result Word :=
  (Codec.newu (0 : Word) 4 28 op).andThen fun w1 =>
  (Codec.newu w1 3 6 a).andThen fun w2 =>
  (Codec.newu w2 3 3 b).andThen fun w3 => Codec.newu w3 3 0 c

/-- R72: the fields of format LI packed into the zero word. -/
def packLI (a imm : Nat) : Codec.Result Word :=
  (Codec.newu (0 : Word) 4 28 13).andThen fun w1 =>
  (Codec.newu w1 3 25 a).andThen fun w2 => Codec.newu w2 25 0 imm

/-- R70: `r0` to `r7`. -/
def regText (r : RegIx) : String := "r" ++ toString r.val

/-- R70: a mnemonic and its register operands. -/
def opText (m : String) : List RegIx → String
  | [] => m
  | r :: rs => m ++ " " ++ String.intercalate ", " ((r :: rs).map regText)

/-- R70: the line of an instruction whose unused fields are 0; an instruction with another value there, and
UNRECOGNIZED, have no line but `.word`. -/
def instrText : Instr → Option String
  | .cmov a b c => some (opText "CMOV" [a, b, c])
  | .sload a b c => some (opText "SLOAD" [a, b, c])
  | .sstore a b c => some (opText "SSTORE" [a, b, c])
  | .add a b c => some (opText "ADD" [a, b, c])
  | .mul a b c => some (opText "MUL" [a, b, c])
  | .div a b c => some (opText "DIV" [a, b, c])
  | .nand a b c => some (opText "NAND" [a, b, c])
  | .halt a b c => if a = 0 ∧ b = 0 ∧ c = 0 then some (opText "HALT" []) else none
  | .map a b c => if a = 0 then some (opText "MAP" [b, c]) else none
  | .unmap a b c => if a = 0 ∧ b = 0 then some (opText "UNMAP" [c]) else none
  | .out a b c => if a = 0 ∧ b = 0 then some (opText "OUT" [c]) else none
  | .inp a b c => if a = 0 ∧ b = 0 then some (opText "IN" [c]) else none
  | .loadp a b c => if a = 0 then some (opText "LOADP" [b, c]) else none
  | .loadi a imm => some (opText "LOADI" [a] ++ ", " ++ toString imm.toNat)
  | .unrecognized _ _ _ => none

/-- R70: `.word v`, the raw word. -/
def rawText (w : Word) : String := ".word " ++ toString w.toNat

/-- R70: the line of a word: its instruction's where that line's canonical word is `w`, else `.word`. -/
def wordText (w : Word) : String :=
  match instrText (decode w) with
  | some t => if encode (decode w) = w then t else rawText w
  | none => rawText w

end Sys2Proof.Machine
end

