-- ==== Sys2Proof/Machine/Loader.lean ====
section
/-! DEFINITION. The boot interface (spec/70_reset_and_hazards.md R183): a program as big-endian bytes. The loader is
outside the core (spec/00_scope.md R5); its format is adopted by D28. -/

namespace Sys2Proof.Machine

/-- Why bytes are no program. -/
inductive LoadError where
  /-- R183: the byte length is not a multiple of 4; the machine is never given such a program (U19). Safe. -/
  | lengthNotMultipleOf4
  deriving DecidableEq, Repr

/-- R183: the words of a program's bytes, in order. -/
def programOfBytes : List Byte → Except LoadError (List Word)
  | [] => .ok []
  | b0 :: b1 :: b2 :: b3 :: rest =>
    match programOfBytes rest with
    | .ok ws => .ok (wordOfBytes b0 b1 b2 b3 :: ws)
    | .error e => .error e
  | _ => .error .lengthNotMultipleOf4

/-- R183: the bytes of a program. -/
def bytesOfProgram (ws : List Word) : List Byte := ws.flatMap bytesOfWord

/-- R181, R183: the machine constructed from a program's bytes, an input and the parameter `alloc_ok`. -/
def startFromBytes (bytes input : List Byte) (allocParam : AllocParam) : Except LoadError State :=
  match programOfBytes bytes with
  | .ok ws => .ok (State.start ws input allocParam)
  | .error e => .error e

end Sys2Proof.Machine
end

