-- ==== Sys2Proof/Machine/Ports.lean ====
section
/-! DEFINITION. The spec's rendering of the three units as hardware: the port tables of spec/40_codec.md R94,
spec/41_decoder.md R107 and spec/42_register_file.md R115. An output line that the spec calls not defined is `none`
(log entry 7). No step of the machine goes through them; they are the units as a user meets them. -/

namespace Sys2Proof.Machine

/-- R94: the codec's inputs, with `CW = 32`. -/
structure CodecIn where
  op : BitVec 3
  word : Word
  width : BitVec 7
  lsb : BitVec 7
  value : Word
  deriving DecidableEq, Repr

/-- R94: the codec's outputs. -/
structure CodecOut where
  result : Option Word
  fits : Option Bool
  badField : Bool
  deriving DecidableEq, Repr

/-- R94: the lines of a fit test. -/
def CodecOut.ofFit (b : Bool) : CodecOut := { result := none, fits := some b, badField := false }

/-- R85, R94: the lines of an extract; the number is carried as its 32-bit pattern. -/
def CodecOut.ofExtract {α : Type} (pattern : α → Word) : Codec.Result α → CodecOut
  | .value v => { result := some (pattern v), fits := none, badField := false }
  | .doesNotFit => { result := none, fits := none, badField := false }
  | .badField => { result := none, fits := none, badField := true }

/-- R86 to R89, R94: the lines of a pack. -/
def CodecOut.ofPack : Codec.Result Word → CodecOut
  | .value w => { result := some w, fits := some true, badField := false }
  | .doesNotFit => { result := none, fits := some false, badField := false }
  | .badField => { result := none, fits := none, badField := true }

/-- R94: the combinational codec; op 6 and 7 are unused. -/
def codecPorts (i : CodecIn) : CodecOut :=
  match i.op.toFin with
  | 0 => .ofFit (Codec.fitss i.value.toInt i.width.toNat)
  | 1 => .ofFit (Codec.fitsu i.value.toNat i.width.toNat)
  | 2 => .ofExtract (BitVec.ofInt 32) (Codec.gets i.word i.width.toNat i.lsb.toNat)
  | 3 => .ofExtract (BitVec.ofNat 32) (Codec.getu i.word i.width.toNat i.lsb.toNat)
  | 4 => .ofPack (Codec.news i.word i.width.toNat i.lsb.toNat i.value.toInt)
  | 5 => .ofPack (Codec.newu i.word i.width.toNat i.lsb.toNat i.value.toNat)
  | 6 => { result := none, fits := none, badField := false }
  | 7 => { result := none, fits := none, badField := false }

/-- R107: the decoder's outputs. -/
structure DecoderOut where
  tag : BitVec 4
  a : BitVec 3
  b : Option (BitVec 3)
  c : Option (BitVec 3)
  bcPresent : Bool
  imm : Option Imm
  immPresent : Bool
  deriving DecidableEq, Repr

/-- A register index on three lines. -/
def regLines (r : RegIx) : BitVec 3 := BitVec.ofFin r

/-- R107: the combinational decoder. -/
def decoderPorts (iw : Word) : DecoderOut :=
  let d := (decode iw).record
  { tag := BitVec.ofNat 4 d.tag.opcode
    a := regLines d.a
    b := d.b.map regLines
    c := d.c.map regLines
    bcPresent := d.b.isSome && d.c.isSome
    imm := d.imm
    immPresent := d.imm.isSome }

/-- R115: the register file's inputs: three read indices, one write, and reset. -/
structure RegFileIn where
  raIdx : BitVec 3
  rbIdx : BitVec 3
  rcIdx : BitVec 3
  wEn : Bool
  wIdx : BitVec 3
  wVal : Word
  reset : Bool
  deriving DecidableEq, Repr

/-- R115: the register file's outputs. -/
structure RegFileOut where
  raVal : Word
  rbVal : Word
  rcVal : Word
  deriving DecidableEq, Repr

/-- The register that three lines name. -/
def regOfLines (l : BitVec 3) : RegIx := ⟨l.toNat, l.isLt⟩

/-- R115, R116: one use of the register file: the three values from before the write, and the registers after it.
`reset` sets all eight to 0 (R114). DESIGN CHOICE (log entry 8): it does so also when `w_en` is 1, and in a use where
it is 1 the three values are still those of the registers before it, not 0. -/
def regFilePorts (regs : Vector Word 8) (i : RegFileIn) : RegFileOut × Vector Word 8 :=
  ({ raVal := regs[regOfLines i.raIdx], rbVal := regs[regOfLines i.rbIdx], rcVal := regs[regOfLines i.rcIdx] },
   if i.reset then Vector.replicate 8 0
   else if i.wEn then regs.set (regOfLines i.wIdx) i.wVal
   else regs)

end Sys2Proof.Machine
end

