-- ==== Sys2Proof/Safety.lean ====
section
/-! DEFINITION. The terms claims use: the canonical form of memory, the invariant of the machine, which registers an
instruction reads and writes (spec/10_state.md R13), and frames. -/

namespace Sys2Proof.Machine

/-- The canonical form of listed words: indices strictly rising and inside the segment, and no entry equal to what an
unlisted index reads as (log entry 2). -/
abbrev Cells.Canonical (len : Nat) (c : List (Nat × Word)) : Prop :=
  c.Pairwise (fun p q => p.1 < q.1) ∧ ∀ p ∈ c, p.1 < len ∧ p.2 ≠ Cells.unlisted

/-- R31, R32: an entry's words are in canonical form, its length is a register value's, and a freed entry is empty. -/
abbrev Segment.Wf (g : Segment) : Prop :=
  Cells.Canonical g.len g.cells ∧ g.len < 2 ^ 32 ∧ (g.live = false → g.len = 0)

/-- R18, R19, R48: the table has segment 0 and at most `MAX_SEGMENTS` entries, each well formed, and an address is in
the pool exactly when its entry is freed, and once. -/
abbrev Memory.wf (m : Memory) : Prop :=
  0 < m.table.length ∧ m.table.length ≤ Config.maxSegments ∧ (∀ g ∈ m.table, g.Wf) ∧ m.pool.Nodup ∧
  (∀ s ∈ m.pool, s < m.table.length ∧ (m.entry s).live = false) ∧
  (∀ s, s < m.table.length → (m.entry s).live = false → s ∈ m.pool)

/-- The invariant of the machine: memory is well formed and `pc` is at most 2^32 - 1 (R15). -/
abbrev Inv (s : State) : Prop := s.mem.wf ∧ s.pc < 2 ^ 32

/-- R13, the column "writes": the one register an instruction may write. -/
def mayWrite : Instr → Option RegIx
  | .cmov a _ _ | .sload a _ _ | .add a _ _ | .mul a _ _ | .div a _ _ | .nand a _ _ | .loadi a _ => some a
  | .map _ b _ => some b
  | .inp _ _ c => some c
  | .sstore _ _ _ | .halt _ _ _ | .unmap _ _ _ | .out _ _ _ | .loadp _ _ _ | .unrecognized _ _ _ => none

/-- R13, the column "reads": the registers an instruction reads. -/
def mayRead : Instr → List RegIx
  | .cmov _ b c | .sload _ b c | .add _ b c | .mul _ b c | .div _ b c | .nand _ b c | .loadp _ b c => [b, c]
  | .sstore a b c => [a, b, c]
  | .map _ _ c | .unmap _ _ c | .out _ _ c => [c]
  | .halt _ _ _ | .inp _ _ _ | .loadi _ _ | .unrecognized _ _ _ => []

/-- Every register reads as before. -/
def SameRegs (s t : State) : Prop := ∀ q, t.getReg q = s.getReg q

/-- Every register but `r` reads as before. -/
def SameRegsBut (r : RegIx) (s t : State) : Prop := ∀ q, q ≠ r → t.getReg q = s.getReg q

/-- `pc`, `STATUS`, the streams and the allocation parameter are as before. -/
def SameRest (s t : State) : Prop :=
  t.pc = s.pc ∧ t.status = s.status ∧ t.out = s.out ∧ t.inp = s.inp ∧ t.allocParam = s.allocParam

/-- Every word of memory reads as before, with the failures of a read the same too, and every entry is as live as
before; the pool is the same. -/
def SameMemory (s t : State) : Prop :=
  (∀ p i, memRead t.mem p i = memRead s.mem p i) ∧ t.mem.table.length = s.mem.table.length ∧
  (∀ p, (t.mem.entry p).live = (s.mem.entry p).live) ∧ t.mem.pool = s.mem.pool

end Sys2Proof.Machine
end

