-- ==== Sys2Proof/Certificates/Slice0/Obligations.lean ====
section
/-! DEFINITION. The statements about the model, each from the numbered rules of spec/. They state and prove nothing. -/

open Sys2Proof Sys2Proof.Machine

/-! ### Reset, the invariant, the cycle -/

/-- R6, R180: the state right after a reset with any program, any input and any parameter `alloc_ok`. That the
parameter is named in the state is the model's choice (log entry 1). -/
def Obligations.StartStateHoldsTheResetValues : Prop :=
  ∀ (prog : List Word) (input : List Byte) (allocParam : AllocParam),
    (∀ r, (State.start prog input allocParam).getReg r = 0) ∧
    (State.start prog input allocParam).pc = 0 ∧
    (State.start prog input allocParam).mem.table.length = 1 ∧
    ((State.start prog input allocParam).mem.entry 0).live = true ∧
    ((State.start prog input allocParam).mem.entry 0).data = prog ∧
    (State.start prog input allocParam).mem.pool = [] ∧
    (State.start prog input allocParam).status = .running ∧
    (State.start prog input allocParam).out = [] ∧
    (State.start prog input allocParam).inp = input ∧
    (State.start prog input allocParam).allocParam = allocParam

/-- R15, R19, R31, R48: the invariant holds at `State.reset`. -/
def Obligations.InvariantHoldsAtReset : Prop := Inv State.reset

/-- R6, R15, R19, R31, R48: the invariant holds after a reset with every program of fewer than 2^32 words. -/
def Obligations.InvariantHoldsAtEveryStart : Prop :=
  ∀ (prog : List Word) (input : List Byte) (allocParam : AllocParam), prog.length < 2 ^ 32 →
    Inv (State.start prog input allocParam)

/-- R15, R19, R31, R48: every step keeps the invariant: `pc` is at most 2^32 - 1, the table has between 1 and 2^32
entries, each length is below 2^32, a freed entry is empty, an address is in the pool exactly when its entry is freed
and once, and the listed words are in canonical form. -/
def Obligations.EveryStepKeepsTheInvariant : Prop :=
  ∀ s t : State, Inv s → step s = .next t → Inv t

/-- R121, R123: while running, a step whose fetch succeeds is `exec` of the decoded instruction, which is well formed,
with `pc` already incremented. -/
def Obligations.StepRunsTheDecodedInstruction : Prop :=
  ∀ (s : State) (w : Word), s.status = .running → memRead s.mem 0 s.pc = .ok w →
    (decode w).WellFormed ∧ step s = exec (decode w) (s.setPc (s.pc + 1))

/-- R163: a fetch at or past the length of segment 0 raises `FetchOutOfBounds`; `pc` is not incremented and nothing
but `STATUS` changes. -/
def Obligations.FetchPastTheEndIsFatal : Prop :=
  ∀ s : State, s.status = .running → s.mem.wordCount 0 ≤ s.pc →
    step s = .next (s.setStatus (.fatal .fetchOutOfBounds))

/-- R21: once `STATUS` is not `Running` no state changes, for any number of steps. That `step` answers the same state
there, and not a stop, is the model's choice (log entry 6). -/
def Obligations.EndedRunNeverChanges : Prop :=
  ∀ (s : State) (n : Nat), s.status ≠ .running → Sys2Proof.core.run n s = .next s

/-- R105, R160: every step of every state answers a next state, and so does every instruction: none ends in a fault or
a refusal. That fatal errors are next states is the model's reading (log entry 6). -/
def Obligations.NothingFaultsOrIsRefused : Prop :=
  (∀ s : State, ∃ t, step s = .next t) ∧ ∀ (i : Instr) (s : State), ∃ t, exec i s = .next t

/-- R150: a step of a running machine ends in `Halted` exactly when the word it fetches is a HALT. -/
def Obligations.OnlyHaltEndsARunCleanly : Prop :=
  ∀ s t : State, s.status = .running → step s = .next t →
    (t.status = .halted ↔ ∃ w, memRead s.mem 0 s.pc = .ok w ∧ (decode w).tag = .halt)

/-- R14, R155: the `pc` after a step that fetched: the next word, for every instruction but LOADP, and for LOADP that
does not end the run the value of x[c]. -/
def Obligations.PcAdvancesByOneExceptForLoadp : Prop :=
  ∀ (s t : State) (w : Word), s.status = .running → memRead s.mem 0 s.pc = .ok w → step s = .next t →
    ((decode w).tag ≠ .loadp → t.pc = s.pc + 1) ∧
    (∀ a b c, decode w = .loadp a b c → t.status = .running → t.pc = (s.getReg c).toNat)

/-- R22: over any number of steps the output is never shortened or rewritten, the remaining input is what is left of
the input, and one instruction appends at most one byte, only if it is OUT, and consumes at most one, only if it is
IN. -/
def Obligations.StreamsOnlyMoveForward : Prop :=
  (∀ (n : Nat) (s t : State), Sys2Proof.core.run n s = .next t → s.out <+: t.out ∧ t.inp <:+ s.inp) ∧
  ∀ (i : Instr) (s t : State), exec i s = .next t →
    (t.out = s.out ∨ (i.tag = .out ∧ ∃ b, t.out = s.out ++ [b])) ∧
    (t.inp = s.inp ∨ (i.tag = .inp ∧ ∃ b, s.inp = b :: t.inp))

/-- R160, R171: an instruction that raises a fatal error has none of its effect: nothing but `STATUS` differs from the
state it began in; at the step, `pc` has been incremented, except where the fetch failed. -/
def Obligations.FatalErrorsArePrecise : Prop :=
  (∀ (i : Instr) (s t : State) (cause : FatalCause), s.status = .running → exec i s = .next t →
    t.status = .fatal cause → t = s.setStatus (.fatal cause)) ∧
  ∀ (s t : State) (cause : FatalCause), s.status = .running → step s = .next t → t.status = .fatal cause →
    (cause = .fetchOutOfBounds ∧ t = s.setStatus (.fatal cause)) ∨
    (cause ≠ .fetchOutOfBounds ∧ t = (s.setPc (s.pc + 1)).setStatus (.fatal cause))

/-- R13, the column "writes": an instruction writes no register but the one the table lists. -/
def Obligations.InstructionsWriteOnlyTheirRegister : Prop :=
  ∀ (i : Instr) (s t : State) (r : RegIx), exec i s = .next t → mayWrite i ≠ some r → t.getReg r = s.getReg r

/-- R13, the column "reads": the effect of an instruction does not depend on a register the table does not list: with
another value there, the next state is the same but for that value, and the very same if the instruction writes it.
For MAP the premise is that the open parameter `alloc_ok`, a predicate of the whole state (R6), answers the same with
that value there; the model's `always` and `within` do (log entry 1). -/
def Obligations.InstructionsDependOnlyOnRegistersRead : Prop :=
  ∀ (i : Instr) (s t : State) (r : RegIx) (v : Word), r ∉ mayRead i →
    (i.tag = .map → ∀ n, (s.setReg r v).allocOk n = s.allocOk n) → exec i s = .next t →
    exec i (s.setReg r v) = .next (t.setReg r v) ∨ (mayWrite i = some r ∧ exec i (s.setReg r v) = .next t)

/-! ### The instructions -/

/-- R130 CMOV. -/
def Obligations.CmovMovesWhenTheConditionIsNotZero : Prop :=
  ∀ (a b c : RegIx) (s : State),
    decode (BitVec.ofNat 32 (0x00000000 + a.val * 64 + b.val * 8 + c.val)) = .cmov a b c ∧
    ∃ t, exec (.cmov a b c) s = .next t ∧
      (s.getReg c ≠ 0 → t.getReg a = s.getReg b) ∧ (s.getReg c = 0 → t.getReg a = s.getReg a) ∧
      SameRegsBut a s t ∧ t.mem = s.mem ∧ SameRest s t

/-- R131 ADD. -/
def Obligations.AddIsModulo : Prop :=
  ∀ (a b c : RegIx) (s : State),
    decode (BitVec.ofNat 32 (0x30000000 + a.val * 64 + b.val * 8 + c.val)) = .add a b c ∧
    ∃ t, exec (.add a b c) s = .next t ∧
      (t.getReg a).toNat = ((s.getReg b).toNat + (s.getReg c).toNat) % 2 ^ 32 ∧
      SameRegsBut a s t ∧ t.mem = s.mem ∧ SameRest s t

/-- R132 MUL. -/
def Obligations.MulIsModulo : Prop :=
  ∀ (a b c : RegIx) (s : State),
    decode (BitVec.ofNat 32 (0x40000000 + a.val * 64 + b.val * 8 + c.val)) = .mul a b c ∧
    ∃ t, exec (.mul a b c) s = .next t ∧
      (t.getReg a).toNat = ((s.getReg b).toNat * (s.getReg c).toNat) % 2 ^ 32 ∧
      SameRegsBut a s t ∧ t.mem = s.mem ∧ SameRest s t

/-- R133 DIV: the quotient is the largest q with q * divisor at most the dividend (R8); divisor 0 is fatal and writes
nothing. -/
def Obligations.DivIsTheFloorQuotient : Prop :=
  ∀ (a b c : RegIx) (s : State),
    decode (BitVec.ofNat 32 (0x50000000 + a.val * 64 + b.val * 8 + c.val)) = .div a b c ∧
    (s.getReg c ≠ 0 → ∃ t, exec (.div a b c) s = .next t ∧
      (t.getReg a).toNat * (s.getReg c).toNat ≤ (s.getReg b).toNat ∧
      (∀ q : Nat, q * (s.getReg c).toNat ≤ (s.getReg b).toNat → q ≤ (t.getReg a).toNat) ∧
      SameRegsBut a s t ∧ t.mem = s.mem ∧ SameRest s t) ∧
    (s.getReg c = 0 → exec (.div a b c) s = .next (s.setStatus (.fatal .divideByZero)))

/-- R134 NAND. -/
def Obligations.NandIsBitwise : Prop :=
  ∀ (a b c : RegIx) (s : State),
    decode (BitVec.ofNat 32 (0x60000000 + a.val * 64 + b.val * 8 + c.val)) = .nand a b c ∧
    ∃ t, exec (.nand a b c) s = .next t ∧
      (∀ k, k < 32 → (t.getReg a).getLsbD k = !((s.getReg b).getLsbD k && (s.getReg c).getLsbD k)) ∧
      SameRegsBut a s t ∧ t.mem = s.mem ∧ SameRest s t

/-- R135 LOADI: the whole register is replaced by the zero-extended immediate. -/
def Obligations.LoadiZeroExtends : Prop :=
  ∀ (a : RegIx) (imm : Imm) (s : State),
    decode (BitVec.ofNat 32 (13 * 2 ^ 28 + a.val * 2 ^ 25 + imm.toNat)) = .loadi a imm ∧
    ∃ t, exec (.loadi a imm) s = .next t ∧
      (t.getReg a).toNat = imm.toNat ∧
      SameRegsBut a s t ∧ t.mem = s.mem ∧ SameRest s t

/-- R140 SLOAD. -/
def Obligations.SloadReadsOneWord : Prop :=
  ∀ (a b c : RegIx) (s : State),
    decode (BitVec.ofNat 32 (0x10000000 + a.val * 64 + b.val * 8 + c.val)) = .sload a b c ∧
    (s.regNat b < s.mem.table.length → s.regNat c < s.mem.wordCount (s.regNat b) →
      ∃ t, exec (.sload a b c) s = .next t ∧
        (s.mem.entry (s.regNat b)).data[s.regNat c]? = some (t.getReg a) ∧
        SameRegsBut a s t ∧ t.mem = s.mem ∧ SameRest s t) ∧
    (s.mem.table.length ≤ s.regNat b →
      exec (.sload a b c) s = .next (s.setStatus (.fatal .segAddrOutOfRange))) ∧
    (s.regNat b < s.mem.table.length → s.mem.wordCount (s.regNat b) ≤ s.regNat c →
      exec (.sload a b c) s = .next (s.setStatus (.fatal .segIndexOutOfRange)))

/-- R141 SSTORE: the word at (x[a], x[b]) takes x[c] and every other word of memory reads as before. -/
def Obligations.SstoreWritesOneWord : Prop :=
  ∀ (a b c : RegIx) (s : State),
    decode (BitVec.ofNat 32 (0x20000000 + a.val * 64 + b.val * 8 + c.val)) = .sstore a b c ∧
    (s.regNat a < s.mem.table.length → s.regNat b < s.mem.wordCount (s.regNat a) →
      ∃ t, exec (.sstore a b c) s = .next t ∧
        memRead t.mem (s.regNat a) (s.regNat b) = .ok (s.getReg c) ∧
        (∀ p i, ¬(p = s.regNat a ∧ i = s.regNat b) → memRead t.mem p i = memRead s.mem p i) ∧
        (∀ p, (t.mem.entry p).live = (s.mem.entry p).live ∧ t.mem.wordCount p = s.mem.wordCount p) ∧
        t.mem.table.length = s.mem.table.length ∧ t.mem.pool = s.mem.pool ∧
        SameRegs s t ∧ SameRest s t) ∧
    (s.mem.table.length ≤ s.regNat a →
      exec (.sstore a b c) s = .next (s.setStatus (.fatal .segAddrOutOfRange))) ∧
    (s.regNat a < s.mem.table.length → s.mem.wordCount (s.regNat a) ≤ s.regNat b →
      exec (.sstore a b c) s = .next (s.setStatus (.fatal .segIndexOutOfRange)))

/-- R32, R142 MAP, in well formed memory: the pool's top if there is one, else a new address at the end of the table;
the segment there is live and holds x[c] zero words; every other word and every other entry is as before. Fatal where
`alloc_ok` of this state and this size refuses, or the table is full. `State.allocOk` is `alloc_ok`; the predicates it
may be are log entry 1. -/
def Obligations.MapAllocatesZeroWords : Prop :=
  ∀ (a b c : RegIx) (s : State), s.mem.wf →
    decode (BitVec.ofNat 32 (0x80000000 + a.val * 64 + b.val * 8 + c.val)) = .map a b c ∧
    (∀ p rest, s.allocOk (s.regNat c) = true → s.mem.pool = p :: rest →
      ∃ t, exec (.map a b c) s = .next t ∧ (t.getReg b).toNat = p ∧
        (t.mem.entry p).live = true ∧ (t.mem.entry p).data = List.replicate (s.regNat c) 0 ∧
        (∀ q, q ≠ p → t.mem.entry q = s.mem.entry q) ∧ (∀ q i, q ≠ p → memRead t.mem q i = memRead s.mem q i) ∧
        t.mem.table.length = s.mem.table.length ∧ t.mem.pool = rest ∧
        SameRegsBut b s t ∧ SameRest s t) ∧
    (s.allocOk (s.regNat c) = true → s.mem.pool = [] → s.mem.table.length < 2 ^ 32 →
      ∃ t, exec (.map a b c) s = .next t ∧ (t.getReg b).toNat = s.mem.table.length ∧
        (t.mem.entry s.mem.table.length).live = true ∧
        (t.mem.entry s.mem.table.length).data = List.replicate (s.regNat c) 0 ∧
        (∀ q, q ≠ s.mem.table.length → t.mem.entry q = s.mem.entry q) ∧
        (∀ q i, q ≠ s.mem.table.length → memRead t.mem q i = memRead s.mem q i) ∧
        t.mem.table.length = s.mem.table.length + 1 ∧ t.mem.pool = [] ∧
        SameRegsBut b s t ∧ SameRest s t) ∧
    (s.allocOk (s.regNat c) = false → exec (.map a b c) s = .next (s.setStatus (.fatal .resourceExhausted))) ∧
    (s.mem.pool = [] → s.mem.table.length = 2 ^ 32 →
      exec (.map a b c) s = .next (s.setStatus (.fatal .resourceExhausted)))

/-- R33, R143 UNMAP: the address's words are gone and it goes on top of the pool; every other word is as before. -/
def Obligations.UnmapFreesTheSegment : Prop :=
  ∀ (a b c : RegIx) (s : State),
    decode (BitVec.ofNat 32 (0x90000000 + a.val * 64 + b.val * 8 + c.val)) = .unmap a b c ∧
    (s.regNat c < s.mem.table.length → (s.mem.entry (s.regNat c)).live = true →
      ∃ t, exec (.unmap a b c) s = .next t ∧
        (t.mem.entry (s.regNat c)).live = false ∧ t.mem.wordCount (s.regNat c) = 0 ∧
        (∀ q, q ≠ s.regNat c → t.mem.entry q = s.mem.entry q) ∧
        (∀ q i, q ≠ s.regNat c → memRead t.mem q i = memRead s.mem q i) ∧
        t.mem.table.length = s.mem.table.length ∧ t.mem.pool = s.regNat c :: s.mem.pool ∧
        SameRegs s t ∧ SameRest s t) ∧
    (s.mem.table.length ≤ s.regNat c ∨ (s.mem.entry (s.regNat c)).live = false →
      exec (.unmap a b c) s = .next (s.setStatus (.fatal .freeInvalid)))

/-- R150 HALT: `STATUS` becomes `Halted`, the exit signal is 0, and nothing else changes, whatever the ignored bits. -/
def Obligations.HaltEndsTheRun : Prop :=
  ∀ (a b c : RegIx) (s : State),
    (∀ w : Word, w.toNat / 2 ^ 28 = 7 → (decode w).tag = .halt) ∧
    ∃ t, exec (.halt a b c) s = .next t ∧ t.status = .halted ∧ t.exitSignal = some 0 ∧
      SameRegs s t ∧ t.mem = s.mem ∧ t.pc = s.pc ∧ t.out = s.out ∧ t.inp = s.inp ∧
      t.allocParam = s.allocParam

/-- R151 OUT: a value of at most 255 is appended as one byte; a greater one is fatal and appends nothing. -/
def Obligations.OutAppendsOneByte : Prop :=
  ∀ (a b c : RegIx) (s : State),
    decode (BitVec.ofNat 32 (0xA0000000 + a.val * 64 + b.val * 8 + c.val)) = .out a b c ∧
    ((s.getReg c).toNat ≤ 255 → ∃ (t : State) (v : Byte), exec (.out a b c) s = .next t ∧
      v.toNat = (s.getReg c).toNat ∧ t.out = s.out ++ [v] ∧
      SameRegs s t ∧ t.mem = s.mem ∧ t.pc = s.pc ∧ t.status = s.status ∧ t.inp = s.inp ∧
      t.allocParam = s.allocParam) ∧
    (255 < (s.getReg c).toNat → exec (.out a b c) s = .next (s.setStatus (.fatal .outputOutOfRange)))

/-- R152 IN: the next byte zero-extended, and one byte of the input consumed; at the end of the input the all-ones
word. -/
def Obligations.InReadsOneByteOrTheSentinel : Prop :=
  ∀ (a b c : RegIx) (s : State),
    decode (BitVec.ofNat 32 (0xB0000000 + a.val * 64 + b.val * 8 + c.val)) = .inp a b c ∧
    (∀ v rest, s.inp = v :: rest → ∃ t, exec (.inp a b c) s = .next t ∧
      (t.getReg c).toNat = v.toNat ∧ t.inp = rest ∧
      SameRegsBut c s t ∧ t.mem = s.mem ∧ t.pc = s.pc ∧ t.status = s.status ∧ t.out = s.out ∧
      t.allocParam = s.allocParam) ∧
    (s.inp = [] → ∃ t, exec (.inp a b c) s = .next t ∧
      (t.getReg c).toNat = 2 ^ 32 - 1 ∧ t.inp = [] ∧
      SameRegsBut c s t ∧ t.mem = s.mem ∧ t.pc = s.pc ∧ t.status = s.status ∧ t.out = s.out ∧
      t.allocParam = s.allocParam)

/-- R36, R153 LOADP: a jump within the program when x[b] is 0; else segment 0 becomes a copy of segment x[b] and every
other segment is as before; the target is x[c], unchecked; an address out of range or freed is fatal before any
change. -/
def Obligations.LoadpCopiesAndJumps : Prop :=
  ∀ (a b c : RegIx) (s : State),
    decode (BitVec.ofNat 32 (0xC0000000 + a.val * 64 + b.val * 8 + c.val)) = .loadp a b c ∧
    (s.getReg b = 0 → ∃ t, exec (.loadp a b c) s = .next t ∧ t.pc = (s.getReg c).toNat ∧
      SameRegs s t ∧ t.mem = s.mem ∧ t.status = s.status ∧ t.out = s.out ∧ t.inp = s.inp ∧
      t.allocParam = s.allocParam) ∧
    (s.getReg b ≠ 0 → s.regNat b < s.mem.table.length → (s.mem.entry (s.regNat b)).live = true →
      ∃ t, exec (.loadp a b c) s = .next t ∧ t.pc = (s.getReg c).toNat ∧
        (t.mem.entry 0).live = true ∧ (t.mem.entry 0).data = (s.mem.entry (s.regNat b)).data ∧
        (∀ q, q ≠ 0 → t.mem.entry q = s.mem.entry q) ∧
        (∀ q i, q ≠ 0 → memRead t.mem q i = memRead s.mem q i) ∧
        t.mem.table.length = s.mem.table.length ∧ t.mem.pool = s.mem.pool ∧
        SameRegs s t ∧ t.status = s.status ∧ t.out = s.out ∧ t.inp = s.inp ∧ t.allocParam = s.allocParam) ∧
    (s.getReg b ≠ 0 → s.mem.table.length ≤ s.regNat b →
      exec (.loadp a b c) s = .next (s.setStatus (.fatal .segAddrOutOfRange))) ∧
    (s.getReg b ≠ 0 → s.regNat b < s.mem.table.length → (s.mem.entry (s.regNat b)).live = false →
      exec (.loadp a b c) s = .next (s.setStatus (.fatal .segNotLive)))

/-- R154 UNRECOGNIZED: every word with opcode 14 or 15 decodes to it, and its effect is the fatal error. -/
def Obligations.UnrecognizedIsFatal : Prop :=
  ∀ (a b c : RegIx) (s : State),
    (∀ w : Word, (decode w).tag = .unrecognized ↔ 0xE0000000 ≤ w.toNat) ∧
    exec (.unrecognized a b c) s = .next (s.setStatus (.fatal .unrecognizedOpcode))

/-! ### Memory -/

/-- R31: no instruction changes the length of a segment that stays live, but LOADP, and that one only of segment 0. -/
def Obligations.OnlyLoadpChangesALiveLength : Prop :=
  ∀ (i : Instr) (s t : State) (p : Nat), s.mem.wf → exec i s = .next t → i.tag ≠ .loadp ∨ p ≠ 0 →
    (s.mem.entry p).live = true → (t.mem.entry p).live = true → t.mem.wordCount p = s.mem.wordCount p

/-- R142: the address MAP returns is never 0 while segment 0 is live, and never that of a live segment. -/
def Obligations.AllocationNeverReturnsALiveAddress : Prop :=
  ∀ (m m' : Memory) (n s : Nat), m.wf → allocate true m n = .ok (m', s) →
    (m.entry s).live = false ∧ ((m.entry 0).live = true → s ≠ 0) ∧ s < 2 ^ 32

/-- R19, R144: the last address freed is the first reused: after `x` then `y` are freed, two allocations return `y`
then `x`, each all zero at its own size whatever the address held. -/
def Obligations.FreedAddressesAreReusedLastFirst : Prop :=
  ∀ (m m1 m2 : Memory) (x y n k : Nat), free m x = .ok m1 → free m1 y = .ok m2 →
    ∃ m3 m4, allocate true m2 n = .ok (m3, y) ∧ allocate true m3 k = .ok (m4, x) ∧
      (m4.entry y).data = List.replicate n 0 ∧ (m4.entry x).data = List.replicate k 0 ∧
      m4.table.length = m.table.length ∧ m4.pool = m.pool

/-- R37: the copy of LOADP is a value copy: a later write to either segment, and freeing the source, leave the other
as it is. -/
def Obligations.LoadedProgramIsAValueCopy : Prop :=
  ∀ (m m1 m2 : Memory) (s i : Nat) (v : Word), s ≠ 0 → replaceZero m s = .ok m1 →
    (m1.entry 0).data = (m.entry s).data ∧ m1.entry s = m.entry s ∧
    (memWrite m1 s i v = .ok m2 → m2.entry 0 = m1.entry 0) ∧
    (memWrite m1 0 i v = .ok m2 → m2.entry s = m1.entry s) ∧
    (free m1 s = .ok m2 → m2.entry 0 = m1.entry 0)

/-- R47: a store into segment 0 is what the next fetch of that index executes: SSTORE with x[a] = 0, fetched at `pc`,
writes the word that the step at its index decodes, the word right after the SSTORE included. -/
def Obligations.StoreIntoTheProgramIsFetched : Prop :=
  ∀ (a b c : RegIx) (s t : State), s.status = .running → s.getReg a = 0 →
    s.regNat b < s.mem.wordCount 0 → exec (.sstore a b c) s = .next t →
    step (t.setPc (s.regNat b)) = exec (decode (s.getReg c)) (t.setPc (s.regNat b + 1)) ∧
    (s.pc = s.regNat b → step t = exec (decode (s.getReg c)) (t.setPc (t.pc + 1)))

/-- R35, R45: a write changes exactly one word of one segment; a read after it gives the value written there and the
old answer, a failure included, everywhere else. -/
def Obligations.ReadAfterWrite : Prop :=
  ∀ (m m' : Memory) (s i : Nat) (v : Word), memWrite m s i v = .ok m' →
    ∀ p j, memRead m' p j = if p = s ∧ j = i then .ok v else memRead m p j

/-- R18, R32, R34, R35: the segments kept as sparse lists refine the spec's lists of words: a read is indexing, a write
is an update of one element, a program is the list itself, a new segment is all zeros. That the words are kept as
sparse lists is the model's choice (log entry 2). -/
def Obligations.SparseSegmentsRefineTheSpecsLists : Prop :=
  (∀ (m : Memory) (s i : Nat), s < m.table.length →
    memRead m s i = match (m.entry s).data[i]? with
      | some w => .ok w
      | none => .error .segIndexOutOfRange) ∧
  (∀ (m m' : Memory) (s i : Nat) (v : Word), memWrite m s i v = .ok m' →
    (m'.entry s).data = (m.entry s).data.set i v ∧ ∀ p, p ≠ s → (m'.entry p).data = (m.entry p).data) ∧
  (∀ ws : List Word, (Segment.ofWords ws).data = ws) ∧
  ∀ (b : Bool) (m m' : Memory) (n s : Nat), m.wf → allocate b m n = .ok (m', s) →
    (m'.entry s).data = List.replicate n 0

/-- Log entry 2: equal memories are equal data: two well formed segments that are equally live and hold the same list of
words (R18) are the same. -/
def Obligations.EqualSegmentsAreEqualData : Prop :=
  ∀ g h : Segment, g.Wf → h.Wf → g.live = h.live → g.data = h.data → g = h

/-! ### Encoding -/

/-- R62, R63, R72: decoding the word of a well formed instruction gives it back, with every field at every value. That
the encoder writes 14 for UNRECOGNIZED is the model's choice (log entry 9). -/
def Obligations.DecodeOfEncodeIsTheInstruction : Prop :=
  ∀ i : Instr, i.WellFormed → decode (encode i) = i

/-- R72: operand numbers that have an encoding give the word of the formula, whose decoding has those numbers for its
fields and no other fields; the others have no encoding. -/
def Obligations.AssembledWordsHoldTheirOperands : Prop :=
  (∀ op a b c : Nat, (AsmForm.r3 op a b c).wf = true → ∃ w, (AsmForm.r3 op a b c).encode = some w ∧
    w.toNat = op * 2 ^ 28 + a * 2 ^ 6 + b * 2 ^ 3 + c ∧ (decode w).record.a.val = a ∧
    (decode w).record.b.map Fin.val = some b ∧ (decode w).record.c.map Fin.val = some c ∧
    (decode w).record.imm = none) ∧
  (∀ a imm : Nat, (AsmForm.li a imm).wf = true → ∃ w, (AsmForm.li a imm).encode = some w ∧
    w.toNat = 13 * 2 ^ 28 + a * 2 ^ 25 + imm ∧ (decode w).record.a.val = a ∧
    (decode w).record.b = none ∧ (decode w).record.c = none ∧
    (decode w).record.imm.map BitVec.toNat = some imm) ∧
  ∀ f : AsmForm, f.wf = false → f.encode = none

/-- R68: two words decode to the same instruction exactly when they are equal (opcode 13), or agree on bits 8:0 and
have the same opcode or both one of 14 and 15. -/
def Obligations.WordsDecodeEqualExactlyWhenFieldsAgree : Prop :=
  ∀ v w : Word, decode v = decode w ↔
    (v.toNat / 2 ^ 28 = 13 ∧ v = w) ∨
    (v.toNat / 2 ^ 28 ≠ 13 ∧ w.toNat / 2 ^ 28 ≠ 13 ∧ v.toNat % 2 ^ 9 = w.toNat % 2 ^ 9 ∧
      (v.toNat / 2 ^ 28 = w.toNat / 2 ^ 28 ∨ (14 ≤ v.toNat / 2 ^ 28 ∧ 14 ≤ w.toNat / 2 ^ 28)))

/-- R100 to R103: every word's decoding, read off its bits: the tag from bits 31:28 by the table of 16, the fields of
LI for opcode 13 and of R3 for every other, the absent ones absent. -/
def Obligations.DecodedFieldsAreTheirBits : Prop :=
  ∀ w : Word,
    (decode w).tag = ([.cmov, .sload, .sstore, .add, .mul, .div, .nand, .halt, .map, .unmap, .out, .inp, .loadp,
      .loadi, .unrecognized, .unrecognized] : List Tag).getD (w.extractLsb' 28 4).toNat .unrecognized ∧
    (decode w).record.tag = (decode w).tag ∧
    ((w.extractLsb' 28 4).toNat = 13 →
      (decode w).record.a.val = (w.extractLsb' 25 3).toNat ∧ (decode w).record.b = none ∧
      (decode w).record.c = none ∧ (decode w).record.imm = some (w.extractLsb' 0 25)) ∧
    ((w.extractLsb' 28 4).toNat ≠ 13 →
      (decode w).record.a.val = (w.extractLsb' 6 3).toNat ∧
      (decode w).record.b.map Fin.val = some (w.extractLsb' 3 3).toNat ∧
      (decode w).record.c.map Fin.val = some (w.extractLsb' 0 3).toNat ∧ (decode w).record.imm = none)

/-- R108: each of the decoder's six field reads is the codec's `getu` of a field inside the word. -/
def Obligations.DecoderFieldReadsAreCodecExtracts : Prop :=
  ∀ w : Word, Codec.getu w 4 28 = .value (opcodeField w).val ∧ Codec.getu w 3 25 = .value (fieldALi w).val ∧
    Codec.getu w 25 0 = .value (fieldImm w).toNat ∧ Codec.getu w 3 6 = .value (fieldA w).val ∧
    Codec.getu w 3 3 = .value (fieldB w).val ∧ Codec.getu w 3 0 = .value (fieldC w).val

/-- R62, R63, R64: words written out bit by bit, one or more of every family, decode to the instruction they stand
for. -/
def Obligations.WrittenWordsDecode : Prop :=
  decode 0b00000000000000000000000001010011#32 = .cmov 1 2 3 ∧
  decode 0b00110000000000000000000011001010#32 = .add 3 1 2 ∧
  decode 0b11011110000000000000000000001100#32 = .loadi 7 12 ∧
  decode 0b00010000000000000000000101010011#32 = .sload 5 2 3 ∧
  decode 0b10000000000000000000000000010001#32 = .map 0 2 1 ∧
  decode 0b11000000000000000000000000010110#32 = .loadp 0 2 6 ∧
  decode 0b01111111111111111111111111111111#32 = .halt 7 7 7 ∧
  decode 0b11110001001000110100010101100111#32 = .unrecognized 5 4 7

/-- R72: packing an instruction's fields into the zero word with `newu` gives the same word as the formula; an
immediate above 2^25 - 1 does not fit. -/
def Obligations.PackedFieldsMakeTheInstructionWord : Prop :=
  (∀ op a b c : Nat, (AsmForm.r3 op a b c).wf = true → packR3 op a b c = .value (encodeR3 op a b c)) ∧
  (∀ a imm : Nat, (AsmForm.li a imm).wf = true → packLI a imm = .value (encodeLI a imm)) ∧
  ∀ a imm : Nat, a < 8 → 2 ^ 25 ≤ imm → packLI a imm = .doesNotFit

/-- R107: the decoder's output lines, read off the bits of `iw`; 15 never appears on `tag`, and the lines of an absent
field carry no value (log entry 7). -/
def Obligations.DecoderPortsShowTheDecodedFields : Prop :=
  ∀ iw : Word,
    (decoderPorts iw).tag.toNat = min (iw.extractLsb' 28 4).toNat 14 ∧
    ((decoderPorts iw).tag = 13 → (decoderPorts iw).a = iw.extractLsb' 25 3 ∧
      (decoderPorts iw).bcPresent = false ∧ (decoderPorts iw).b = none ∧ (decoderPorts iw).c = none ∧
      (decoderPorts iw).immPresent = true ∧ (decoderPorts iw).imm = some (iw.extractLsb' 0 25)) ∧
    ((decoderPorts iw).tag ≠ 13 → (decoderPorts iw).a = iw.extractLsb' 6 3 ∧
      (decoderPorts iw).bcPresent = true ∧ (decoderPorts iw).b = some (iw.extractLsb' 3 3) ∧
      (decoderPorts iw).c = some (iw.extractLsb' 0 3) ∧ (decoderPorts iw).immPresent = false ∧
      (decoderPorts iw).imm = none)

/-! ### The codec -/

/-- R82, R83: the fit tests over the mathematical integers, width 0 included. -/
def Obligations.FitTestsAreTheirBounds : Prop :=
  (∀ (n : Int) (width : Nat), 1 ≤ width →
    (Codec.fitss n width = true ↔ -2 ^ (width - 1) ≤ n ∧ n ≤ 2 ^ (width - 1) - 1)) ∧
  (∀ n : Int, Codec.fitss n 0 = true ↔ n = 0) ∧
  ∀ n width : Nat, (Codec.fitsu n width = true ↔ n < 2 ^ width) ∧ (Codec.fitsu n 0 = true ↔ n = 0)

/-- R84, R89: `getu` of a field inside the carrier is the number whose bit `k` is the word's bit `lsb + k`, and of any
other field it is `badField`. -/
def Obligations.UnsignedExtractIsTheField : Prop :=
  ∀ (cw width lsb : Nat) (word : BitVec cw),
    (lsb + width ≤ cw → ∃ v, Codec.getu word width lsb = .value v ∧ v < 2 ^ width ∧
      ∀ k, v.testBit k = (decide (k < width) && word.getLsbD (lsb + k))) ∧
    (cw < lsb + width → Codec.getu word width lsb = .badField)

/-- R85, R89: `gets` of a field inside the carrier is the integer in two's-complement range that is the unsigned field
modulo 2^width, 0 at width 0, and `badField` for any other field. -/
def Obligations.SignedExtractIsTwosComplement : Prop :=
  ∀ (cw width lsb : Nat) (word : BitVec cw),
    (lsb + width ≤ cw → 1 ≤ width → ∃ (n : Int) (v : Nat), Codec.gets word width lsb = .value n ∧
      Codec.getu word width lsb = .value v ∧ -2 ^ (width - 1) ≤ n ∧ n ≤ 2 ^ (width - 1) - 1 ∧
      n % 2 ^ width = v) ∧
    (lsb ≤ cw → Codec.gets word 0 lsb = .value 0) ∧
    (cw < lsb + width → Codec.gets word width lsb = .badField)

/-- R86, R88, R89: `newu` ORs the value's bits into the field and passes every other bit through; a value that does
not fit answers `doesNotFit`, and a field outside the carrier `badField`, which is tested first. -/
def Obligations.UnsignedPackOrsIntoTheField : Prop :=
  ∀ (cw width lsb value : Nat) (word : BitVec cw),
    (lsb + width ≤ cw → value < 2 ^ width → ∃ w, Codec.newu word width lsb value = .value w ∧
      ∀ k, k < cw → w.getLsbD k =
        (word.getLsbD k || (decide (lsb ≤ k) && decide (k < lsb + width) && value.testBit (k - lsb)))) ∧
    (lsb + width ≤ cw → 2 ^ width ≤ value → Codec.newu word width lsb value = .doesNotFit) ∧
    (cw < lsb + width → Codec.newu word width lsb value = .badField)

/-- R87, R88, R89: `news` ORs the value's two's-complement pattern of `width` bits into the field and passes every
other bit through; failures as for `newu`. -/
def Obligations.SignedPackOrsTheMaskedPattern : Prop :=
  ∀ (cw width lsb : Nat) (value : Int) (word : BitVec cw),
    (lsb + width ≤ cw → Codec.fitss value width = true → ∃ w, Codec.news word width lsb value = .value w ∧
      ∀ k, k < cw → w.getLsbD k =
        (word.getLsbD k || (decide (lsb ≤ k) && decide (k < lsb + width) &&
          (value % 2 ^ width).toNat.testBit (k - lsb)))) ∧
    (lsb + width ≤ cw → Codec.fitss value width = false → Codec.news word width lsb value = .doesNotFit) ∧
    (cw < lsb + width → Codec.news word width lsb value = .badField)

/-- R91: a value that fits, packed into a field that is zero, is extracted again, unsigned and signed, and every bit
outside the field is unchanged. -/
def Obligations.PackThenExtractRoundTrips : Prop :=
  ∀ (cw width lsb : Nat) (word : BitVec cw), lsb + width ≤ cw →
    (∀ k, k < width → word.getLsbD (lsb + k) = false) →
    (∀ v : Nat, Codec.fitsu v width = true → ∃ w, Codec.newu word width lsb v = .value w ∧
      Codec.getu w width lsb = .value v ∧
      ∀ k, k < lsb ∨ lsb + width ≤ k → w.getLsbD k = word.getLsbD k) ∧
    ∀ n : Int, Codec.fitss n width = true → ∃ w, Codec.news word width lsb n = .value w ∧
      Codec.gets w width lsb = .value n ∧
      ∀ k, k < lsb ∨ lsb + width ≤ k → w.getLsbD k = word.getLsbD k

/-- R93: for a field of at least one bit inside the carrier, the two shifts give the extracts. -/
def Obligations.ShiftsGiveTheExtracts : Prop :=
  ∀ (cw width lsb : Nat) (word : BitVec cw), lsb + width ≤ cw → 1 ≤ width →
    Codec.getu word width lsb = .value (Codec.getuByShifts word width lsb).toNat ∧
    Codec.gets word width lsb = .value (Codec.getsByShifts word width lsb).toInt

/-- R95: for a 32-bit word and a field inside it, the four operations give the same numbers for a carrier of 32 and of
64 bits. -/
def Obligations.CarrierWidthDoesNotMatter : Prop :=
  ∀ (word : Word) (width lsb : Nat), lsb + width ≤ 32 →
    Codec.getu (word.setWidth 64) width lsb = Codec.getu word width lsb ∧
    Codec.gets (word.setWidth 64) width lsb = Codec.gets word width lsb ∧
    (∀ v w, Codec.newu word width lsb v = .value w →
      Codec.newu (word.setWidth 64) width lsb v = .value (w.setWidth 64)) ∧
    (∀ v, Codec.newu word width lsb v = .doesNotFit → Codec.newu (word.setWidth 64) width lsb v = .doesNotFit) ∧
    (∀ n w, Codec.news word width lsb n = .value w →
      Codec.news (word.setWidth 64) width lsb n = .value (w.setWidth 64)) ∧
    ∀ n, Codec.news word width lsb n = .doesNotFit → Codec.news (word.setWidth 64) width lsb n = .doesNotFit

/-- R90, R92: a field inside the carrier whose bits are all 0 extracts as 0, signed and unsigned, and so does a field
of width 0; a pack of width 0 takes only the value 0 and leaves the word. -/
def Obligations.ZeroFieldsAndWidthZeroGiveZero : Prop :=
  ∀ (cw width lsb : Nat) (word : BitVec cw),
    (lsb + width ≤ cw → (∀ k, k < width → word.getLsbD (lsb + k) = false) →
      Codec.getu word width lsb = .value 0 ∧ Codec.gets word width lsb = .value 0) ∧
    (lsb ≤ cw → Codec.getu word 0 lsb = .value 0 ∧ Codec.gets word 0 lsb = .value 0 ∧
      Codec.newu word 0 lsb 0 = .value word ∧ Codec.news word 0 lsb 0 = .value word ∧
      (∀ v, v ≠ 0 → Codec.newu word 0 lsb v = .doesNotFit) ∧
      ∀ n, n ≠ 0 → Codec.news word 0 lsb n = .doesNotFit)

/-! ### The register file, the ports, the boundary -/

/-- R111, R112, R113: `get` after `set`, with an index of any size: an index of 8 or more is the fatal error
`RegIndexOutOfRange`, and any other changes that register alone. -/
def Obligations.RegisterFileGetsWhatWasSet : Prop :=
  ∀ (s : State) (i : Nat) (v : Word),
    (i < 8 → ∃ t, setWide s i v = .ok t ∧ getWide t i = .ok v ∧
      (∀ j, j ≠ i → getWide t j = getWide s j) ∧ t.mem = s.mem ∧ SameRest s t) ∧
    (8 ≤ i → setWide s i v = .error .regIndexOutOfRange ∧ getWide s i = .error .regIndexOutOfRange)

/-- R114, R115, R116: the register file's ports: the three values are those from before the write, a write changes the
register it names alone, reset clears all eight. That reset wins over a write, and that the three values in a use with reset are those from
before it, is the model's choice (log entry 8). -/
def Obligations.RegisterFilePortsReadBeforeWrite : Prop :=
  ∀ (regs : Vector Word 8) (i : RegFileIn),
    (regFilePorts regs i).1.raVal = regs[i.raIdx.toNat]'i.raIdx.isLt ∧
    (regFilePorts regs i).1.rbVal = regs[i.rbIdx.toNat]'i.rbIdx.isLt ∧
    (regFilePorts regs i).1.rcVal = regs[i.rcIdx.toNat]'i.rcIdx.isLt ∧
    ∀ (k : Nat) (h : k < 8), (regFilePorts regs i).2[k] =
      if i.reset then 0 else if i.wEn ∧ k = i.wIdx.toNat then i.wVal else regs[k]

/-- R82, R83, R89, R94: the codec's ports: `bad_field` is 1 exactly for an extract or a pack of a field outside the
word, and then no other line has a value; a fit test of a width of 32 or more is true. -/
def Obligations.CodecPortsFlagBadFields : Prop :=
  ∀ i : CodecIn,
    ((codecPorts i).badField = true ↔
      2 ≤ i.op.toNat ∧ i.op.toNat ≤ 5 ∧ 32 < i.lsb.toNat + i.width.toNat) ∧
    ((codecPorts i).badField = true → (codecPorts i).result = none ∧ (codecPorts i).fits = none) ∧
    (i.op.toNat ≤ 1 → 32 ≤ i.width.toNat → (codecPorts i).fits = some true)

/-- R127, R177: what can be observed of a run is its output, and beside it no exit signal while the machine is running,
0 once it has halted, and after a fatal error the same non-zero signal for every cause, whose value is free (log
entry 5). -/
def Obligations.RunShowsOutputAndSignal : Prop :=
  ∃ e : Int, e ≠ 0 ∧ ∀ s : State,
    (s.status = .running → s.observable = (s.out, none)) ∧
    (s.status = .halted → s.observable = (s.out, some 0)) ∧
    ∀ cause, s.status = .fatal cause → s.observable = (s.out, some e)

/-- R183: a program's bytes are its words, the most significant byte first; a length that is no multiple of 4 is no
program. The source leaves open what the loader does with such a length; that it answers the error
`lengthNotMultipleOf4` is the model's choice (log entry 11). -/
def Obligations.ProgramBytesAreBigEndianWords : Prop :=
  ∀ bs : List Byte,
    (bs.length % 4 = 0 → ∃ ws, programOfBytes bs = .ok ws ∧ 4 * ws.length = bs.length ∧
      bytesOfProgram ws = bs ∧
      ∀ k, k < ws.length → (ws.getD k 0).toNat =
        (bs.getD (4 * k) 0).toNat * 2 ^ 24 + (bs.getD (4 * k + 1) 0).toNat * 2 ^ 16 +
        (bs.getD (4 * k + 2) 0).toNat * 2 ^ 8 + (bs.getD (4 * k + 3) 0).toNat) ∧
    (bs.length % 4 ≠ 0 → programOfBytes bs = .error .lengthNotMultipleOf4)

/-- R6, R32, R48: `alloc_ok` is a parameter: no number of steps changes it. With the spec's default "always", MAP in
well formed memory raises a fatal error exactly when there is no address to reuse and the table is full, and the cause
is `ResourceExhausted`. The table-full failure is R32's pseudocode, followed against R142's "with the default parameter
it never happens" (log entry 13). That the parameter is named in the state is the model's choice (log entry 1). -/
def Obligations.AllocParamIsFixedAndDefaultMapFailsOnlyWhenFull : Prop :=
  (∀ (n : Nat) (s t : State), Sys2Proof.core.run n s = .next t → t.allocParam = s.allocParam) ∧
  ∀ (a b c : RegIx) (s t : State) (cause : FatalCause), s.mem.wf → s.status = .running → s.allocParam = .always →
    exec (.map a b c) s = .next t →
    (t.status = .fatal cause ↔
      cause = .resourceExhausted ∧ s.mem.pool = [] ∧ s.mem.table.length = 2 ^ 32)
end

