-- ==== Sys2Proof/Laws/Codec.lean ====
section
/-! SUPPORT. The codec and the fields of an instruction word, bit by bit and as numbers. -/

namespace Sys2Proof.Machine.Codec

@[simp] theorem inRange_iff (cw width lsb : Nat) : inRange cw width lsb = true ↔ lsb + width ≤ cw := by
  simp [inRange]

theorem fitsu_iff (n width : Nat) : fitsu n width = true ↔ n < 2 ^ width := by simp [fitsu]

theorem fieldBits_toNat {cw : Nat} (word : BitVec cw) (width lsb : Nat) :
    (fieldBits word width lsb).toNat = word.toNat / 2 ^ lsb % 2 ^ width := by
  simp [fieldBits]

/-- R7: bit `k` of a field is bit `lsb + k` of the word. -/
theorem fieldBits_getLsbD {cw : Nat} (word : BitVec cw) (width lsb k : Nat) :
    (fieldBits word width lsb).getLsbD k = (decide (k < width) && word.getLsbD (lsb + k)) := by
  simp [fieldBits, BitVec.getLsbD, Nat.testBit_div_two_pow, Nat.add_comm]

theorem fieldBits_eq_extract {cw : Nat} (word : BitVec cw) (width lsb : Nat) :
    fieldBits word width lsb = word.extractLsb' lsb width := by
  apply BitVec.eq_of_toNat_eq
  rw [fieldBits_toNat, BitVec.extractLsb'_toNat, Nat.shiftRight_eq_div_pow]

theorem getu_of_inRange {cw width lsb : Nat} (word : BitVec cw) (h : lsb + width ≤ cw) :
    getu word width lsb = .value (fieldBits word width lsb).toNat := by
  simp [getu, h]

theorem getu_of_outside {cw width lsb : Nat} (word : BitVec cw) (h : cw < lsb + width) :
    getu word width lsb = .badField := by
  simp [getu, Nat.not_le_of_lt h]

theorem gets_of_inRange {cw width lsb : Nat} (word : BitVec cw) (h : lsb + width ≤ cw) (h0 : width ≠ 0) :
    gets word width lsb = .value (sext width (fieldBits word width lsb).toNat) := by
  simp [gets, h, h0]

theorem newu_of_fits {cw width lsb value : Nat} (word : BitVec cw) (h : lsb + width ≤ cw)
    (hv : value < 2 ^ width) : newu word width lsb value = .value (orInto word lsb value) := by
  simp [newu, h, fitsu, hv]

theorem newu_of_not_fits {cw width lsb value : Nat} (word : BitVec cw) (h : lsb + width ≤ cw)
    (hv : 2 ^ width ≤ value) : newu word width lsb value = .doesNotFit := by
  simp [newu, h, fitsu, Nat.not_lt_of_le hv]

theorem news_of_fits {cw width lsb : Nat} {value : Int} (word : BitVec cw) (h : lsb + width ≤ cw)
    (hv : fitss value width = true) : news word width lsb value = .value (orInto word lsb (tc width value)) := by
  simp [news, h, hv]

theorem tc_lt (width : Nat) (n : Int) : tc width n < 2 ^ width := by
  have hp : (0 : Int) < 2 ^ width := by positivity
  have h1 := Int.emod_nonneg n (ne_of_gt hp)
  have h2 := Int.emod_lt_of_pos n hp
  unfold tc
  zify
  rw [Int.toNat_of_nonneg h1]
  exact h2

/-- R86: bit `k` of a pack's word. -/
theorem orInto_getLsbD {cw : Nat} (word : BitVec cw) (lsb pattern k : Nat) :
    (orInto word lsb pattern).getLsbD k =
      (word.getLsbD k || (decide (k < cw) && decide (lsb ≤ k) && pattern.testBit (k - lsb))) := by
  simp only [orInto, BitVec.getLsbD_or, BitVec.getLsbD_ofNat, Nat.testBit_mul_two_pow]
  cases word.getLsbD k <;> simp [Bool.and_assoc]

end Sys2Proof.Machine.Codec

namespace Sys2Proof

open Sys2Proof.Machine

theorem opcodeField_val (w : Word) : (opcodeField w).val = w.toNat / 2 ^ 28 := by
  have h := Codec.fieldBits_toNat w 4 28
  have hw := w.isLt
  show (Codec.fieldBits w 4 28).toNat = _
  rw [h]
  omega

theorem fieldA_val (w : Word) : (fieldA w).val = w.toNat / 2 ^ 6 % 8 := Codec.fieldBits_toNat w 3 6

theorem fieldB_val (w : Word) : (fieldB w).val = w.toNat / 2 ^ 3 % 8 := Codec.fieldBits_toNat w 3 3

theorem fieldC_val (w : Word) : (fieldC w).val = w.toNat % 8 := by
  have h := Codec.fieldBits_toNat w 3 0
  rw [pow_zero, Nat.div_one] at h
  exact h

theorem fieldALi_val (w : Word) : (fieldALi w).val = w.toNat / 2 ^ 25 % 8 := Codec.fieldBits_toNat w 3 25

theorem fieldImm_toNat (w : Word) : (fieldImm w).toNat = w.toNat % 2 ^ 25 := by
  have h := Codec.fieldBits_toNat w 25 0
  rw [pow_zero, Nat.div_one] at h
  exact h

/-- R62, R72: the fields of an encoded format R3 word. -/
theorem fields_encodeR3 {op a b c : Nat} (ho : op < 16) (ha : a < 8) (hb : b < 8) (hc : c < 8) :
    (opcodeField (encodeR3 op a b c)).val = op ∧ (fieldA (encodeR3 op a b c)).val = a ∧
    (fieldB (encodeR3 op a b c)).val = b ∧ (fieldC (encodeR3 op a b c)).val = c := by
  have hn : (encodeR3 op a b c).toNat = op * 2 ^ 28 + a * 2 ^ 6 + b * 2 ^ 3 + c := by
    simp only [encodeR3, BitVec.toNat_ofNat]
    apply Nat.mod_eq_of_lt
    omega
  rw [opcodeField_val, fieldA_val, fieldB_val, fieldC_val, hn]
  refine ⟨?_, ?_, ?_, ?_⟩ <;> omega

/-- R63, R72: the fields of an encoded format LI word. -/
theorem fields_encodeLI {a imm : Nat} (ha : a < 8) (hi : imm < 2 ^ 25) :
    (opcodeField (encodeLI a imm)).val = 13 ∧ (fieldALi (encodeLI a imm)).val = a ∧
    (fieldImm (encodeLI a imm)).toNat = imm := by
  have hn : (encodeLI a imm).toNat = 13 * 2 ^ 28 + a * 2 ^ 25 + imm := by
    simp only [encodeLI, BitVec.toNat_ofNat]
    apply Nat.mod_eq_of_lt
    omega
  rw [opcodeField_val, fieldALi_val, fieldImm_toNat, hn]
  refine ⟨?_, ?_, ?_⟩ <;> omega

/-- R100: the record of a decoded word, by its opcode field. -/
theorem decode_record (w : Word) : (decode w).record =
    if tagOf (opcodeField w) = .loadi then .li (fieldALi w) (fieldImm w)
    else .r3 (tagOf (opcodeField w)) (fieldA w) (fieldB w) (fieldC w) := by
  unfold decode
  cases tagOf (opcodeField w) <;> rfl

/-- R101: the tag of a decoded word. -/
theorem decode_tag (w : Word) : (decode w).tag = tagOf (opcodeField w) := by
  unfold decode
  cases tagOf (opcodeField w) <;> rfl

/-- R101: the tag of an opcode field known by its number. -/
theorem tagOf_of_val {w : Word} {n : Fin 16} (h : (opcodeField w).val = n.val) : tagOf (opcodeField w) = tagOf n := by
  rw [Fin.ext h]

/-- R102: a word with opcode 13, by its fields. -/
theorem decode_loadi {w : Word} {a : RegIx} {imm : Imm} (ho : (opcodeField w).val = 13)
    (ha : (fieldALi w).val = a.val) (hi : (fieldImm w).toNat = imm.toNat) : decode w = .loadi a imm := by
  have h : tagOf (opcodeField w) = .loadi := tagOf_of_val (n := 13) ho
  unfold decode
  rw [h, ← Fin.ext ha, ← BitVec.eq_of_toNat_eq hi]

/-- R104: the record keeps all there is of a decoded instruction. -/
theorem Instr.record_injective {i j : Instr} (h : i.record = j.record) : i = j := by
  cases i <;> cases j <;> simp_all [Instr.record, DecodedRecord.r3, DecodedRecord.li]

/-- R103: a word with another opcode, by the record of its fields. -/
theorem decode_r3 {w : Word} {a b c : RegIx} {n : Fin 16} {i : Instr} (ho : (opcodeField w).val = n.val)
    (ha : (fieldA w).val = a.val) (hb : (fieldB w).val = b.val) (hc : (fieldC w).val = c.val)
    (hi : i.record = .r3 (tagOf n) a b c) (hn : tagOf n ≠ .loadi) : decode w = i := by
  apply Instr.record_injective
  rw [decode_record, tagOf_of_val ho, if_neg hn, hi, Fin.ext ha, Fin.ext hb, Fin.ext hc]

end Sys2Proof
end

