-- ==== Sys2Proof/Laws/State.lean ====
section
/-! SUPPORT. What each update of State does to each field, and to a register's value; true by `rfl` but for the two
lemmas about the register an update writes. -/

namespace Sys2Proof.Machine

@[simp] theorem State.setReg_regs (s : State) (r : RegIx) (v : Word) : (s.setReg r v).regs = s.regs.set r v := rfl
@[simp] theorem State.setReg_pc (s : State) (r : RegIx) (v : Word) : (s.setReg r v).pc = s.pc := rfl
@[simp] theorem State.setReg_mem (s : State) (r : RegIx) (v : Word) : (s.setReg r v).mem = s.mem := rfl
@[simp] theorem State.setReg_status (s : State) (r : RegIx) (v : Word) : (s.setReg r v).status = s.status := rfl
@[simp] theorem State.setReg_out (s : State) (r : RegIx) (v : Word) : (s.setReg r v).out = s.out := rfl
@[simp] theorem State.setReg_inp (s : State) (r : RegIx) (v : Word) : (s.setReg r v).inp = s.inp := rfl
@[simp] theorem State.setReg_allocParam (s : State) (r : RegIx) (v : Word) : (s.setReg r v).allocParam = s.allocParam := rfl

@[simp] theorem State.setPc_regs (s : State) (p : Nat) : (s.setPc p).regs = s.regs := rfl
@[simp] theorem State.setPc_pc (s : State) (p : Nat) : (s.setPc p).pc = p := rfl
@[simp] theorem State.setPc_mem (s : State) (p : Nat) : (s.setPc p).mem = s.mem := rfl
@[simp] theorem State.setPc_status (s : State) (p : Nat) : (s.setPc p).status = s.status := rfl
@[simp] theorem State.setPc_out (s : State) (p : Nat) : (s.setPc p).out = s.out := rfl
@[simp] theorem State.setPc_inp (s : State) (p : Nat) : (s.setPc p).inp = s.inp := rfl
@[simp] theorem State.setPc_allocParam (s : State) (p : Nat) : (s.setPc p).allocParam = s.allocParam := rfl
@[simp] theorem State.setPc_getReg (s : State) (p : Nat) (q : RegIx) : (s.setPc p).getReg q = s.getReg q := rfl

@[simp] theorem State.setMem_regs (s : State) (m : Memory) : (s.setMem m).regs = s.regs := rfl
@[simp] theorem State.setMem_pc (s : State) (m : Memory) : (s.setMem m).pc = s.pc := rfl
@[simp] theorem State.setMem_mem (s : State) (m : Memory) : (s.setMem m).mem = m := rfl
@[simp] theorem State.setMem_status (s : State) (m : Memory) : (s.setMem m).status = s.status := rfl
@[simp] theorem State.setMem_out (s : State) (m : Memory) : (s.setMem m).out = s.out := rfl
@[simp] theorem State.setMem_inp (s : State) (m : Memory) : (s.setMem m).inp = s.inp := rfl
@[simp] theorem State.setMem_allocParam (s : State) (m : Memory) : (s.setMem m).allocParam = s.allocParam := rfl
@[simp] theorem State.setMem_getReg (s : State) (m : Memory) (q : RegIx) : (s.setMem m).getReg q = s.getReg q := rfl

@[simp] theorem State.setStatus_regs (s : State) (st : Status) : (s.setStatus st).regs = s.regs := rfl
@[simp] theorem State.setStatus_pc (s : State) (st : Status) : (s.setStatus st).pc = s.pc := rfl
@[simp] theorem State.setStatus_mem (s : State) (st : Status) : (s.setStatus st).mem = s.mem := rfl
@[simp] theorem State.setStatus_status (s : State) (st : Status) : (s.setStatus st).status = st := rfl
@[simp] theorem State.setStatus_out (s : State) (st : Status) : (s.setStatus st).out = s.out := rfl
@[simp] theorem State.setStatus_inp (s : State) (st : Status) : (s.setStatus st).inp = s.inp := rfl
@[simp] theorem State.setStatus_allocParam (s : State) (st : Status) : (s.setStatus st).allocParam = s.allocParam := rfl
@[simp] theorem State.setStatus_getReg (s : State) (st : Status) (q : RegIx) : (s.setStatus st).getReg q = s.getReg q := rfl

@[simp] theorem State.setOut_regs (s : State) (bs : List Byte) : (s.setOut bs).regs = s.regs := rfl
@[simp] theorem State.setOut_pc (s : State) (bs : List Byte) : (s.setOut bs).pc = s.pc := rfl
@[simp] theorem State.setOut_mem (s : State) (bs : List Byte) : (s.setOut bs).mem = s.mem := rfl
@[simp] theorem State.setOut_status (s : State) (bs : List Byte) : (s.setOut bs).status = s.status := rfl
@[simp] theorem State.setOut_out (s : State) (bs : List Byte) : (s.setOut bs).out = bs := rfl
@[simp] theorem State.setOut_inp (s : State) (bs : List Byte) : (s.setOut bs).inp = s.inp := rfl
@[simp] theorem State.setOut_allocParam (s : State) (bs : List Byte) : (s.setOut bs).allocParam = s.allocParam := rfl
@[simp] theorem State.setOut_getReg (s : State) (bs : List Byte) (q : RegIx) : (s.setOut bs).getReg q = s.getReg q := rfl

@[simp] theorem State.setInp_regs (s : State) (bs : List Byte) : (s.setInp bs).regs = s.regs := rfl
@[simp] theorem State.setInp_pc (s : State) (bs : List Byte) : (s.setInp bs).pc = s.pc := rfl
@[simp] theorem State.setInp_mem (s : State) (bs : List Byte) : (s.setInp bs).mem = s.mem := rfl
@[simp] theorem State.setInp_status (s : State) (bs : List Byte) : (s.setInp bs).status = s.status := rfl
@[simp] theorem State.setInp_out (s : State) (bs : List Byte) : (s.setInp bs).out = s.out := rfl
@[simp] theorem State.setInp_inp (s : State) (bs : List Byte) : (s.setInp bs).inp = bs := rfl
@[simp] theorem State.setInp_allocParam (s : State) (bs : List Byte) : (s.setInp bs).allocParam = s.allocParam := rfl
@[simp] theorem State.setInp_getReg (s : State) (bs : List Byte) (q : RegIx) : (s.setInp bs).getReg q = s.getReg q := rfl

@[simp] theorem State.setAllocParam_regs (s : State) (p : AllocParam) : (s.setAllocParam p).regs = s.regs := rfl
@[simp] theorem State.setAllocParam_pc (s : State) (p : AllocParam) : (s.setAllocParam p).pc = s.pc := rfl
@[simp] theorem State.setAllocParam_mem (s : State) (p : AllocParam) : (s.setAllocParam p).mem = s.mem := rfl
@[simp] theorem State.setAllocParam_status (s : State) (p : AllocParam) : (s.setAllocParam p).status = s.status := rfl
@[simp] theorem State.setAllocParam_out (s : State) (p : AllocParam) : (s.setAllocParam p).out = s.out := rfl
@[simp] theorem State.setAllocParam_inp (s : State) (p : AllocParam) : (s.setAllocParam p).inp = s.inp := rfl
@[simp] theorem State.setAllocParam_allocParam (s : State) (p : AllocParam) : (s.setAllocParam p).allocParam = p := rfl
@[simp] theorem State.setAllocParam_getReg (s : State) (p : AllocParam) (q : RegIx) : (s.setAllocParam p).getReg q = s.getReg q := rfl

/-- R112: the register written holds the value, the others are unchanged. -/
theorem State.setReg_getReg (s : State) (r : RegIx) (v : Word) (q : RegIx) :
    (s.setReg r v).getReg q = if q = r then v else s.getReg q := by
  unfold State.getReg State.setReg
  show (s.regs.set r.val v)[q.val] = _
  rw [Vector.getElem_set]
  by_cases h : q = r
  · simp [h]
  · have h' : r.val ≠ q.val := fun e => h (Fin.ext e.symm)
    simp [h, h']

@[simp] theorem State.setReg_getReg_same (s : State) (r : RegIx) (v : Word) : (s.setReg r v).getReg r = v := by
  simp [State.setReg_getReg]

@[simp] theorem State.setReg_getReg_ne (s : State) {r q : RegIx} (v : Word) (h : q ≠ r) :
    (s.setReg r v).getReg q = s.getReg q := by
  simp [State.setReg_getReg, h]

/-- Two states are equal when each field is, the registers read one by one. -/
theorem State.ext_getReg {s t : State} (hr : ∀ q, t.getReg q = s.getReg q) (hp : t.pc = s.pc) (hm : t.mem = s.mem)
    (hs : t.status = s.status) (ho : t.out = s.out) (hi : t.inp = s.inp) (ha : t.allocParam = s.allocParam) :
    t = s := by
  cases s
  cases t
  simp only [State.mk.injEq] at *
  refine ⟨?_, hp, hm, hs, ho, hi, ha⟩
  apply Vector.ext
  intro i h
  exact hr ⟨i, h⟩

@[simp] theorem State.setReg_setReg (s : State) (r : RegIx) (v w : Word) :
    (s.setReg r v).setReg r w = s.setReg r w := by
  apply State.ext_getReg <;> try rfl
  intro q
  simp only [State.setReg_getReg]
  split <;> rfl

theorem State.setReg_comm (s : State) {r q : RegIx} (v w : Word) (h : q ≠ r) :
    (s.setReg r v).setReg q w = (s.setReg q w).setReg r v := by
  apply State.ext_getReg <;> try rfl
  intro p
  simp only [State.setReg_getReg]
  split <;> split <;> simp_all

@[simp] theorem State.advance_pc (s : State) : s.advance.pc = s.pc + 1 := rfl
@[simp] theorem State.advance_getReg (s : State) (q : RegIx) : s.advance.getReg q = s.getReg q := rfl
@[simp] theorem State.advance_mem (s : State) : s.advance.mem = s.mem := rfl
@[simp] theorem State.advance_status (s : State) : s.advance.status = s.status := rfl
@[simp] theorem State.advance_out (s : State) : s.advance.out = s.out := rfl
@[simp] theorem State.advance_inp (s : State) : s.advance.inp = s.inp := rfl
@[simp] theorem State.advance_allocParam (s : State) : s.advance.allocParam = s.allocParam := rfl

end Sys2Proof.Machine
end

