-- ==== Sys2Proof/Laws/Ops.lean ====
section
/-! SUPPORT. What each shared operation does, said once: the words of a segment, the operations of the segment
manager, and that each of them keeps `Memory.wf`. -/

namespace Sys2Proof.Machine

/-! ### The words of one segment -/

theorem Cells.read_insert (c : List (Nat × Word)) (i : Nat) (v : Word) (j : Nat) :
    Cells.read (Cells.insert c i v) j = if j = i then v else Cells.read c j := by
  induction c with
  | nil => simp [Cells.insert, Cells.read]
  | cons p t ih =>
    obtain ⟨k, w⟩ := p
    simp only [Cells.insert]
    split
    · simp [Cells.read]
    · split
      · rename_i h; subst h
        by_cases hj : j = i <;> simp [Cells.read, hj]
      · by_cases hj : j = k
        · subst hj
          have : j ≠ i := fun e => by omega
          simp [Cells.read, this]
        · simp [Cells.read, hj, ih]

theorem Cells.read_filter_ne (c : List (Nat × Word)) (i j : Nat) :
    Cells.read (c.filter (fun p => decide (p.1 ≠ i))) j = if j = i then Cells.unlisted else Cells.read c j := by
  induction c with
  | nil => simp [Cells.read]
  | cons p t ih =>
    obtain ⟨k, w⟩ := p
    by_cases hk : k = i
    · subst hk
      by_cases hj : j = k <;> simp_all [Cells.read]
    · by_cases hj : j = k
      · subst hj
        simp [hk, Cells.read]
      · rw [List.filter_cons_of_pos (by simpa using hk)]
        simp only [Cells.read, if_neg hj]
        exact ih

/-- A read after a write: the value at the index written, the old value elsewhere. -/
theorem Cells.read_write (c : List (Nat × Word)) (i : Nat) (v : Word) (j : Nat) :
    Cells.read (Cells.write c i v) j = if j = i then v else Cells.read c j := by
  unfold Cells.write
  split
  · rename_i h; rw [Cells.read_filter_ne, h]
  · exact Cells.read_insert c i v j

theorem Cells.mem_insert {c : List (Nat × Word)} {i : Nat} {v : Word} {p : Nat × Word}
    (h : p ∈ Cells.insert c i v) : p = (i, v) ∨ p ∈ c := by
  induction c with
  | nil => simpa [Cells.insert] using h
  | cons q t ih =>
    simp only [Cells.insert] at h
    split at h
    · simpa using h
    · split at h
      · simp only [List.mem_cons] at h ⊢; tauto
      · simp only [List.mem_cons] at h ⊢
        rcases h with h | h
        · tauto
        · rcases ih h with h | h <;> tauto

theorem Cells.insert_sorted {c : List (Nat × Word)} (i : Nat) (v : Word)
    (h : c.Pairwise (fun p q => p.1 < q.1)) : (Cells.insert c i v).Pairwise (fun p q => p.1 < q.1) := by
  induction c with
  | nil => simp [Cells.insert]
  | cons q t ih =>
    obtain ⟨k, w⟩ := q
    rw [List.pairwise_cons] at h
    simp only [Cells.insert]
    split
    · rename_i hk
      rw [List.pairwise_cons, List.pairwise_cons]
      refine ⟨?_, h.1, h.2⟩
      intro p hp
      rcases List.mem_cons.1 hp with rfl | hp
      · exact hk
      · exact lt_trans hk (h.1 p hp)
    · split
      · rename_i hk; subst hk
        rw [List.pairwise_cons]
        exact ⟨h.1, h.2⟩
      · rename_i h1 h2
        rw [List.pairwise_cons]
        refine ⟨?_, ih h.2⟩
        intro p hp
        rcases Cells.mem_insert hp with rfl | hp
        · show k < i; omega
        · exact h.1 p hp

/-- A write inside the segment keeps the canonical form. -/
theorem Cells.write_canonical {len : Nat} {c : List (Nat × Word)} {i : Nat} (v : Word)
    (h : Cells.Canonical len c) (hi : i < len) : Cells.Canonical len (Cells.write c i v) := by
  unfold Cells.write
  split
  · exact ⟨h.1.filter _, fun p hp => h.2 p (List.mem_filter.1 hp).1⟩
  · rename_i hv
    refine ⟨Cells.insert_sorted i v h.1, fun p hp => ?_⟩
    rcases Cells.mem_insert hp with rfl | hp
    · exact ⟨hi, hv⟩
    · exact h.2 p hp

/-- An index below every listed one is not listed. -/
theorem Cells.read_of_lt {c : List (Nat × Word)} {i : Nat} (h : ∀ p ∈ c, i < p.1) :
    Cells.read c i = Cells.unlisted := by
  induction c with
  | nil => rfl
  | cons q t ih =>
    obtain ⟨k, w⟩ := q
    have hk : i < k := h (k, w) (List.mem_cons_self)
    have : i ≠ k := by omega
    simp [Cells.read, this, ih (fun p hp => h p (List.mem_cons_of_mem _ hp))]

/-- The canonical form is unique: two canonical lists that read the same everywhere are equal. -/
theorem Cells.ext_of_canonical {l l' : Nat} {c d : List (Nat × Word)} (hc : Cells.Canonical l c)
    (hd : Cells.Canonical l' d) (h : ∀ i, Cells.read c i = Cells.read d i) : c = d := by
  induction c generalizing d with
  | nil =>
    cases d with
    | nil => rfl
    | cons q t =>
      obtain ⟨k, w⟩ := q
      have h1 := h k
      have h2 := (hd.2 (k, w) List.mem_cons_self).2
      simp only [Cells.read, if_true] at h1
      exact absurd h1.symm h2
  | cons p t ih =>
    obtain ⟨k, w⟩ := p
    have hw := (hc.2 (k, w) List.mem_cons_self).2
    have hc' := List.pairwise_cons.1 hc.1
    cases d with
    | nil =>
      have h1 := h k
      simp only [Cells.read, if_true] at h1
      exact absurd h1 hw
    | cons q u =>
      obtain ⟨j, x⟩ := q
      have hx := (hd.2 (j, x) List.mem_cons_self).2
      have hd' := List.pairwise_cons.1 hd.1
      have hkj : k = j := by
        rcases Nat.lt_trichotomy k j with hlt | he | hgt
        · exfalso
          have h1 := h k
          rw [Cells.read_of_lt (c := (j, x) :: u)] at h1
          · simp only [Cells.read, if_true] at h1
            exact hw h1
          · intro p hp
            rcases List.mem_cons.1 hp with rfl | hp
            · exact hlt
            · exact lt_trans hlt (hd'.1 p hp)
        · exact he
        · exfalso
          have h1 := h j
          rw [Cells.read_of_lt (c := (k, w) :: t)] at h1
          · simp only [Cells.read, if_true] at h1
            exact hx h1.symm
          · intro p hp
            rcases List.mem_cons.1 hp with rfl | hp
            · exact hgt
            · exact lt_trans hgt (hc'.1 p hp)
      subst hkj
      have hwx : w = x := by simpa [Cells.read] using h k
      subst hwx
      congr 1
      apply ih (d := u) ⟨hc'.2, fun p hp => hc.2 p (List.mem_cons_of_mem _ hp)⟩
        ⟨hd'.2, fun p hp => hd.2 p (List.mem_cons_of_mem _ hp)⟩
      intro i
      by_cases hi : i = k
      · subst hi
        rw [Cells.read_of_lt hc'.1, Cells.read_of_lt hd'.1]
      · simpa [Cells.read, hi] using h i

theorem Cells.ofWordsFrom_bounds {i : Nat} {ws : List Word} {p : Nat × Word}
    (h : p ∈ Cells.ofWordsFrom i ws) : i ≤ p.1 ∧ p.1 < i + ws.length ∧ p.2 ≠ Cells.unlisted := by
  induction ws generalizing i with
  | nil => simp [Cells.ofWordsFrom] at h
  | cons w t ih =>
    simp only [Cells.ofWordsFrom] at h
    split at h
    · obtain ⟨h1, h2, h3⟩ := ih h
      simp only [List.length_cons]
      exact ⟨by omega, by omega, h3⟩
    · rename_i hw
      rcases List.mem_cons.1 h with rfl | h
      · simp only [List.length_cons]
        exact ⟨le_refl _, by omega, hw⟩
      · have := ih h
        simp only [List.length_cons]
        refine ⟨by omega, by omega, this.2.2⟩

theorem Cells.ofWordsFrom_canonical (i : Nat) (ws : List Word) :
    Cells.Canonical (i + ws.length) (Cells.ofWordsFrom i ws) := by
  refine ⟨?_, fun p hp => ⟨(Cells.ofWordsFrom_bounds hp).2.1, (Cells.ofWordsFrom_bounds hp).2.2⟩⟩
  induction ws generalizing i with
  | nil => simp [Cells.ofWordsFrom]
  | cons w t ih =>
    simp only [Cells.ofWordsFrom]
    split
    · exact ih (i + 1)
    · rw [List.pairwise_cons]
      refine ⟨fun p hp => ?_, ih (i + 1)⟩
      have := (Cells.ofWordsFrom_bounds hp).1
      show i < p.1
      omega

theorem Cells.read_ofWordsFrom (i : Nat) (ws : List Word) (j : Nat) (hj : j < ws.length) :
    Cells.read (Cells.ofWordsFrom i ws) (i + j) = ws[j] := by
  induction ws generalizing i j with
  | nil => simp at hj
  | cons w t ih =>
    simp only [Cells.ofWordsFrom]
    cases j with
    | zero =>
      split
      · rename_i hw
        rw [Cells.read_of_lt]
        · simp [hw]
        · intro p hp
          have := (Cells.ofWordsFrom_bounds hp).1
          omega
      · simp [Cells.read]
    | succ j =>
      have hj' : j < t.length := by simpa using hj
      have e : i + (j + 1) = i + 1 + j := by omega
      split
      · rw [e, ih (i + 1) j hj']; simp
      · have : i + (j + 1) ≠ i := by omega
        simp only [Cells.read, if_neg this]
        rw [e, ih (i + 1) j hj']; simp

/-! ### Segments as the spec's lists of words -/

@[simp] theorem Segment.data_length (g : Segment) : g.data.length = g.len := by simp [Segment.data]

theorem Segment.data_getElem? (g : Segment) (i : Nat) :
    g.data[i]? = if i < g.len then some (Cells.read g.cells i) else none := by
  unfold Segment.data
  rw [List.getElem?_map]
  split
  · rename_i h; simp [h]
  · rename_i h; simp [Nat.le_of_not_lt h]

/-- R20: the segment of a sequence of words holds that sequence. -/
theorem Segment.data_ofWords (ws : List Word) : (Segment.ofWords ws).data = ws := by
  apply List.ext_getElem?
  intro i
  rw [Segment.data_getElem?]
  show (if i < ws.length then _ else _) = _
  split
  · rename_i h
    have := Cells.read_ofWordsFrom 0 ws i h
    rw [Nat.zero_add] at this
    simp [Segment.ofWords, this]
  · rename_i h; simp [Nat.le_of_not_lt h]

/-- R32: a new segment is all zero. -/
theorem Segment.data_zeroed (n : Nat) : (Segment.zeroed n).data = List.replicate n 0 := by
  apply List.ext_getElem?
  intro i
  rw [Segment.data_getElem?, List.getElem?_replicate]
  rfl

theorem Segment.zeroed_wf {n : Nat} (h : n < 2 ^ 32) : (Segment.zeroed n).Wf :=
  ⟨⟨List.Pairwise.nil, by simp [Segment.zeroed]⟩, h, by simp [Segment.zeroed]⟩

theorem Segment.freed_wf : Segment.freed.Wf := by decide

theorem Segment.ofWords_wf {ws : List Word} (h : ws.length < 2 ^ 32) : (Segment.ofWords ws).Wf := by
  refine ⟨?_, h, by simp [Segment.ofWords]⟩
  have := Cells.ofWordsFrom_canonical 0 ws
  rwa [Nat.zero_add] at this

/-! ### The segment manager -/

theorem Memory.entry_eq {m : Memory} {s : Nat} {g : Segment} (h : m.table[s]? = some g) : m.entry s = g := by
  simp [Memory.entry, List.getD_eq_getElem?_getD, h]

theorem Memory.entry_of_le {m : Memory} {s : Nat} (h : m.table.length ≤ s) : m.entry s = Segment.freed := by
  simp [Memory.entry, List.getD_eq_getElem?_getD, h]

theorem Memory.table_getElem? {m : Memory} {s : Nat} (h : s < m.table.length) : m.table[s]? = some (m.entry s) := by
  simp [Memory.entry, List.getD_eq_getElem?_getD, h]

theorem Memory.entry_set (t : List Segment) (pool : List Nat) (s : Nat) (g : Segment) (p : Nat) :
    Memory.entry { table := t.set s g, pool := pool } p =
      if p = s ∧ s < t.length then g else Memory.entry { table := t, pool := pool } p := by
  simp only [Memory.entry, List.getD_eq_getElem?_getD, List.getElem?_set]
  by_cases h : s = p
  · subst h
    by_cases hl : s < t.length
    · simp [hl]
    · simp [hl]
  · have h' : p ≠ s := fun e => h e.symm
    simp [h, h']

theorem Memory.entry_append (t : List Segment) (pool pool' : List Nat) (g : Segment) (p : Nat) :
    Memory.entry { table := t ++ [g], pool := pool } p =
      if p = t.length then g else Memory.entry { table := t, pool := pool' } p := by
  simp only [Memory.entry, List.getD_eq_getElem?_getD]
  rcases Nat.lt_trichotomy p t.length with h | h | h
  · simp [List.getElem?_append_left h, Nat.ne_of_lt h]
  · subst h; simp
  · rw [List.getElem?_eq_none (by simp; omega), List.getElem?_eq_none (by omega)]
    simp [Nat.ne_of_gt h]

/-- R34 in full: a read in the terms of the entry and its length. -/
theorem memRead_eq (m : Memory) (s i : Nat) :
    memRead m s i = if s < m.table.length then
        (if i < (m.entry s).len then .ok (Cells.read (m.entry s).cells i) else .error .segIndexOutOfRange)
      else .error .segAddrOutOfRange := by
  unfold memRead
  split
  · rename_i h
    rw [if_neg (by simpa using h)]
  · rename_i g h
    have hs : s < m.table.length := (List.getElem?_eq_some_iff.1 h).1
    rw [if_pos hs, Memory.entry_eq h]

/-- R34 against the spec's list of words. -/
theorem memRead_data (m : Memory) (s i : Nat) :
    memRead m s i = if s < m.table.length then
        (match (m.entry s).data[i]? with
          | some w => .ok w
          | none => .error .segIndexOutOfRange)
      else .error .segAddrOutOfRange := by
  rw [memRead_eq, Segment.data_getElem?]
  split
  · split <;> rfl
  · rfl

/-- R35: when a write succeeds, and what it leaves. -/
theorem memWrite_ok {m m' : Memory} {s i : Nat} {v : Word} (h : memWrite m s i v = .ok m') :
    s < m.table.length ∧ i < (m.entry s).len ∧
    m' = { m with table := m.table.set s { m.entry s with cells := Cells.write (m.entry s).cells i v } } := by
  unfold memWrite at h
  split at h
  · exact absurd h (by simp)
  · rename_i g hg
    split at h
    · rename_i hi
      have hs : s < m.table.length := (List.getElem?_eq_some_iff.1 hg).1
      rw [Memory.entry_eq hg]
      exact ⟨hs, hi, by simpa using h.symm⟩
    · exact absurd h (by simp)

theorem memWrite_eq (m : Memory) (s i : Nat) (v : Word) :
    memWrite m s i v = if s < m.table.length then
        (if i < (m.entry s).len then
          .ok { m with table := m.table.set s { m.entry s with cells := Cells.write (m.entry s).cells i v } }
        else .error .segIndexOutOfRange)
      else .error .segAddrOutOfRange := by
  unfold memWrite
  split
  · rename_i h
    rw [if_neg (by simpa using h)]
  · rename_i g h
    have hs : s < m.table.length := (List.getElem?_eq_some_iff.1 h).1
    rw [if_pos hs, Memory.entry_eq h]

/-- R33: when a free succeeds, and what it leaves. -/
theorem free_ok {m m' : Memory} {s : Nat} (h : free m s = .ok m') :
    s < m.table.length ∧ (m.entry s).live = true ∧
    m' = { table := m.table.set s Segment.freed, pool := s :: m.pool } := by
  unfold free at h
  split at h
  · exact absurd h (by simp)
  · rename_i g hg
    split at h
    · rename_i hl
      rw [Memory.entry_eq hg]
      exact ⟨(List.getElem?_eq_some_iff.1 hg).1, hl, by simpa using h.symm⟩
    · exact absurd h (by simp)

theorem free_eq (m : Memory) (s : Nat) :
    free m s = if s < m.table.length ∧ (m.entry s).live = true then
        .ok { table := m.table.set s Segment.freed, pool := s :: m.pool }
      else .error .freeInvalid := by
  unfold free
  split
  · rename_i h
    rw [if_neg]
    rintro ⟨h1, -⟩
    exact absurd h1 (by simpa using h)
  · rename_i g h
    have hs : s < m.table.length := (List.getElem?_eq_some_iff.1 h).1
    rw [Memory.entry_eq h]
    by_cases hl : g.live = true <;> simp [hs, hl]

/-- R36: when a replacement succeeds, and what it leaves. -/
theorem replaceZero_ok {m m' : Memory} {s : Nat} (h : replaceZero m s = .ok m') :
    s < m.table.length ∧ (m.entry s).live = true ∧
    m' = { m with table := m.table.set 0 { live := true, len := (m.entry s).len, cells := (m.entry s).cells } } := by
  unfold replaceZero at h
  split at h
  · exact absurd h (by simp)
  · rename_i g hg
    split at h
    · rename_i hl
      rw [Memory.entry_eq hg]
      exact ⟨(List.getElem?_eq_some_iff.1 hg).1, hl, by simpa using h.symm⟩
    · exact absurd h (by simp)

theorem replaceZero_eq (m : Memory) (s : Nat) :
    replaceZero m s = if s < m.table.length then
        (if (m.entry s).live = true then
          .ok { m with table := m.table.set 0 { live := true, len := (m.entry s).len, cells := (m.entry s).cells } }
        else .error .segNotLive)
      else .error .segAddrOutOfRange := by
  unfold replaceZero
  split
  · rename_i h
    rw [if_neg (by simpa using h)]
  · rename_i g h
    have hs : s < m.table.length := (List.getElem?_eq_some_iff.1 h).1
    rw [if_pos hs, Memory.entry_eq h]

/-- R32: the two ways an allocation succeeds, and what each leaves. -/
theorem allocate_ok {b : Bool} {m : Memory} {n : Nat} {r : Memory × Nat} (h : allocate b m n = .ok r) :
    b = true ∧
    ((∃ rest, m.pool = r.2 :: rest ∧ r.1 = { table := m.table.set r.2 (Segment.zeroed n), pool := rest }) ∨
     (m.pool = [] ∧ r.2 = m.table.length ∧ m.table.length < Config.maxSegments ∧
      r.1 = { table := m.table ++ [Segment.zeroed n], pool := [] })) := by
  unfold allocate at h
  split at h
  · exact absurd h (by simp)
  · rename_i hb
    refine ⟨by simpa using hb, ?_⟩
    split at h
    · rename_i s rest hp
      left
      simp only [Except.ok.injEq] at h
      subst h
      exact ⟨rest, hp, rfl⟩
    · rename_i hp
      split at h
      · exact absurd h (by simp)
      · rename_i hl
        right
        simp only [Except.ok.injEq] at h
        subst h
        exact ⟨hp, rfl, Nat.lt_of_not_le hl, rfl⟩

/-! ### Each operation keeps `Memory.wf` -/

theorem Memory.wf_entry {m : Memory} (h : m.wf) (s : Nat) : (m.entry s).Wf := by
  by_cases hs : s < m.table.length
  · exact h.2.2.1 _ (List.mem_of_getElem? (Memory.table_getElem? hs))
  · rw [Memory.entry_of_le (by omega)]; exact Segment.freed_wf

theorem Memory.mem_pool_iff {m : Memory} (h : m.wf) (s : Nat) :
    s ∈ m.pool ↔ s < m.table.length ∧ (m.entry s).live = false :=
  ⟨h.2.2.2.2.1 s, fun ⟨a, b⟩ => h.2.2.2.2.2 s a b⟩

/-- Storing a well formed entry, with the pool in step with its liveness, keeps `Memory.wf`. -/
theorem Memory.wf_set {m : Memory} (h : m.wf) {s : Nat} {g : Segment} {pool : List Nat} (hg : g.Wf)
    (hn : pool.Nodup)
    (hp : ∀ p, p ∈ pool ↔ p < m.table.length ∧ (if p = s then g.live else (m.entry p).live) = false) :
    Memory.wf { table := m.table.set s g, pool := pool } := by
  have key : ∀ p, p < m.table.length →
      (Memory.entry { table := m.table.set s g, pool := pool } p).live =
        if p = s then g.live else (m.entry p).live := by
    intro p hpl
    rw [Memory.entry_set]
    by_cases e : p = s
    · subst e; simp [hpl]
    · simp [e, Memory.entry]
  refine ⟨by simpa using h.1, by simpa using h.2.1, ?_, hn, ?_, ?_⟩
  · intro x hx
    rcases List.mem_or_eq_of_mem_set hx with hx | rfl
    · exact h.2.2.1 x hx
    · exact hg
  · intro p hpp
    obtain ⟨h1, h2⟩ := (hp p).1 hpp
    exact ⟨by simpa using h1, by rw [key p h1]; exact h2⟩
  · intro p hl hf
    have hl' : p < m.table.length := by simpa using hl
    rw [key p hl'] at hf
    exact (hp p).2 ⟨hl', hf⟩

theorem memWrite_wf {m m' : Memory} {s i : Nat} {v : Word} (h : m.wf) (he : memWrite m s i v = .ok m') : m'.wf := by
  obtain ⟨hs, hi, rfl⟩ := memWrite_ok he
  have hw := Memory.wf_entry h s
  refine Memory.wf_set h ⟨Cells.write_canonical v hw.1 hi, hw.2.1, hw.2.2⟩ h.2.2.2.1 fun p => ?_
  rw [Memory.mem_pool_iff h]
  by_cases e : p = s
  · subst e; simp
  · simp [e]

theorem free_wf {m m' : Memory} {s : Nat} (h : m.wf) (he : free m s = .ok m') : m'.wf := by
  obtain ⟨hs, hl, rfl⟩ := free_ok he
  have hns : s ∉ m.pool := fun hp => by
    have := ((Memory.mem_pool_iff h s).1 hp).2
    rw [hl] at this; exact absurd this (by simp)
  refine Memory.wf_set h Segment.freed_wf (List.nodup_cons.2 ⟨hns, h.2.2.2.1⟩) fun p => ?_
  rw [List.mem_cons, Memory.mem_pool_iff h]
  by_cases e : p = s
  · subst e; simp [hs, Segment.freed]
  · simp [e]

/-- R32: an allocation fails with one cause, in one of two ways. -/
theorem allocate_error {b : Bool} {m : Memory} {n : Nat} {c : FatalCause} :
    allocate b m n = .error c ↔
      c = .resourceExhausted ∧ (b = false ∨ (m.pool = [] ∧ Config.maxSegments ≤ m.table.length)) := by
  unfold allocate
  cases b with
  | false => simp [eq_comm]
  | true =>
    cases m.pool with
    | cons p rest => simp
    | nil =>
      simp only [Bool.true_eq_false, if_false, false_or, true_and]
      split <;> simp_all [eq_comm]

/-- The default of `alloc_ok` is "always" (R6). -/
theorem allocOk_always {s : State} (h : s.allocParam = .always) (n : Nat) : s.allocOk n = true := by
  simp [State.allocOk, h]

/-- A machine with room for `words` words allocates as long as it has room. -/
theorem allocOk_within {s : State} {words : Nat} (h : s.allocParam = .within words) (n : Nat) :
    s.allocOk n = true ↔ s.mem.totalWords + n ≤ words := by
  simp [State.allocOk, h]

theorem allocate_wf {b : Bool} {m : Memory} {n : Nat} {r : Memory × Nat} (h : m.wf) (hn : n < 2 ^ 32)
    (he : allocate b m n = .ok r) : r.1.wf := by
  obtain ⟨-, ⟨rest, hp, hr⟩ | ⟨hp, -, hl, hr⟩⟩ := allocate_ok he
  · rw [hr]
    have hnd := h.2.2.2.1
    rw [hp, List.nodup_cons] at hnd
    refine Memory.wf_set h (Segment.zeroed_wf hn) hnd.2 fun p => ?_
    have hm := Memory.mem_pool_iff h p
    rw [hp, List.mem_cons] at hm
    by_cases e : p = r.2
    · subst e
      simp only [if_true, Segment.zeroed]
      exact ⟨fun hx => absurd hx hnd.1, fun hx => absurd hx.2 (by simp)⟩
    · simp only [e, if_false, false_or] at hm ⊢
      exact hm
  · rw [hr]
    have key := Memory.entry_append m.table [] m.pool (Segment.zeroed n)
    refine ⟨by simp, by simp only [List.length_append, List.length_singleton]; omega, ?_, List.nodup_nil, by simp, ?_⟩
    · intro g hg
      rcases List.mem_append.1 hg with hg | hg
      · exact h.2.2.1 g hg
      · rw [List.mem_singleton.1 hg]; exact Segment.zeroed_wf hn
    · intro p hpl hf
      rw [key p] at hf
      split at hf
      · exact absurd hf (by simp [Segment.zeroed])
      · rename_i hne
        have hpl' : p < m.table.length := by
          simp only [List.length_append, List.length_singleton] at hpl
          omega
        have := (Memory.mem_pool_iff h p).2 ⟨hpl', hf⟩
        rw [hp] at this
        exact absurd this (by simp)

/-- R36 in a running program: segment 0 is live, as a fetch from it shows (R38). -/
theorem replaceZero_wf {m m' : Memory} {s : Nat} (h : m.wf) (h0 : (m.entry 0).live = true)
    (he : replaceZero m s = .ok m') : m'.wf := by
  obtain ⟨hs, hl, rfl⟩ := replaceZero_ok he
  have hw := Memory.wf_entry h s
  refine Memory.wf_set h ⟨hw.1, hw.2.1, by simp⟩ h.2.2.2.1 fun p => ?_
  rw [Memory.mem_pool_iff h]
  by_cases e : p = 0
  · subst e; simp [h0]
  · simp [e]

theorem start_wf {prog : List Word} (input : List Byte) (p : AllocParam) (h : prog.length < 2 ^ 32) :
    (State.start prog input p).mem.wf := by
  refine ⟨by simp [State.start], by simp [State.start, Config.maxSegments], ?_, by simp [State.start], by simp [State.start], ?_⟩
  · intro g hg
    rw [List.mem_singleton.1 hg]
    exact Segment.ofWords_wf h
  · intro p hp hf
    have : p = 0 := by simpa [State.start] using hp
    subst this
    exact absurd hf (by simp [State.start, Memory.entry, Segment.ofWords])

theorem reset_mem_wf : State.reset.mem.wf := by decide

/-! ### Fetching, raising -/

/-- What is checked answers a next state when all that may follow does. -/
theorem attempt_next {α : Type} {r : Except FatalCause α} {s : State} {k : α → Result} (h : ∀ v, ∃ t, k v = .next t) :
    ∃ t, attempt r s k = .next t := by
  cases r with
  | ok v => exact h v
  | error c => exact ⟨_, rfl⟩

theorem attempt_ok {α : Type} {r : Except FatalCause α} {s : State} {k : α → Result} {v : α} (h : r = .ok v) :
    attempt r s k = k v := by rw [h]; rfl

theorem attempt_error {α : Type} {r : Except FatalCause α} {s : State} {k : α → Result} {c : FatalCause}
    (h : r = .error c) : attempt r s k = raise c s := by rw [h]; rfl

/-- Everything a checked operation can do to a meaning that answers `t`. -/
theorem attempt_cases {α : Type} {r : Except FatalCause α} {s : State} {k : α → Result} {t : State}
    (h : attempt r s k = .next t) :
    (∃ v, r = .ok v ∧ k v = .next t) ∨ (∃ c, r = .error c ∧ t = s.setStatus (.fatal c)) := by
  cases r with
  | ok v => exact .inl ⟨v, rfl, h⟩
  | error c => exact .inr ⟨c, rfl, by simpa [attempt, raise] using h.symm⟩

theorem fetchWord_ok {s : State} {w : Word} : fetchWord s = .ok w ↔ memRead s.mem 0 s.pc = .ok w := by
  unfold fetchWord
  split <;> simp_all

theorem fetchWord_error {s : State} {c : FatalCause} (h : fetchWord s = .error c) : c = .fetchOutOfBounds := by
  unfold fetchWord at h
  split at h <;> simp_all

/-- R38: the fetch fails exactly when `pc` is not below the length of segment 0. -/
theorem fetchWord_eq (s : State) : fetchWord s =
    if s.pc < s.mem.wordCount 0 then .ok (Cells.read (s.mem.entry 0).cells s.pc) else .error .fetchOutOfBounds := by
  unfold fetchWord
  rw [memRead_eq]
  by_cases h0 : 0 < s.mem.table.length
  · by_cases hp : s.pc < (s.mem.entry 0).len <;> simp [h0, hp, Memory.wordCount]
  · have : (s.mem.entry 0).len = 0 := by rw [Memory.entry_of_le (by omega)]; rfl
    simp [h0, Memory.wordCount, this]

end Sys2Proof.Machine
end

