-- ==== Sys2Proof/Laws/Exec.lean ====
section
/-! SUPPORT. What an instruction and a step can do, said once, and the conditions that instructions test. -/

namespace Sys2Proof.Machine

theorem isNonZero_iff (w : Word) : isNonZero w = true ↔ w ≠ 0 := by simp [isNonZero]

theorem isZero_iff (w : Word) : isZero w = true ↔ w = 0 := by simp [isZero]

theorem isByte_iff (w : Word) : isByte w = true ↔ w.toNat ≤ 255 := by simp [isByte]

theorem addWords_toNat (x y : Word) : (addWords x y).toNat = (x.toNat + y.toNat) % 2 ^ 32 := by simp [addWords]

theorem mulWords_toNat (x y : Word) : (mulWords x y).toNat = (x.toNat * y.toNat) % 2 ^ 32 := by simp [mulWords]

theorem divWords_toNat (x y : Word) : (divWords x y).toNat = x.toNat / y.toNat := by
  simp only [divWords, BitVec.toNat_ofNat]
  exact Nat.mod_eq_of_lt (lt_of_le_of_lt (Nat.div_le_self _ _) x.isLt)

theorem nandWords_getLsbD (x y : Word) {k : Nat} (hk : k < 32) :
    (nandWords x y).getLsbD k = !(x.getLsbD k && y.getLsbD k) := by simp [nandWords, hk]

theorem zextImm_toNat (imm : Imm) : (zextImm imm).toNat = imm.toNat := by
  unfold zextImm
  rw [BitVec.toNat_setWidth]
  exact Nat.mod_eq_of_lt (lt_trans imm.isLt (by norm_num))

theorem zextByte_toNat (b : Byte) : (zextByte b).toNat = b.toNat := by
  unfold zextByte
  rw [BitVec.toNat_setWidth]
  exact Nat.mod_eq_of_lt (lt_trans b.isLt (by norm_num))

/-- Everything an instruction can do: it raises a fatal error, and then nothing but `STATUS` differs (R160, R171); or
it has its effect, said here for the status, the `pc`, the streams, the registers (R13), the
parameter `alloc_ok` and the memory. -/
theorem exec_cases (i : Instr) (s t : State) (h : exec i s = .next t) :
    (∃ c, t = s.setStatus (.fatal c)) ∨
    (t.status = (if i.tag = .halt then .halted else s.status) ∧
     (i.tag ≠ .loadp → t.pc = s.pc) ∧
     (∀ a b c, i = .loadp a b c → t.pc = s.regNat c) ∧
     (t.out = s.out ∨ (i.tag = .out ∧ ∃ b, t.out = s.out ++ [b])) ∧
     (t.inp = s.inp ∨ (i.tag = .inp ∧ ∃ b, s.inp = b :: t.inp)) ∧
     (∀ r, mayWrite i ≠ some r → t.getReg r = s.getReg r) ∧
     t.allocParam = s.allocParam ∧
     (t.mem = s.mem ∨ (∃ a b c, i = .sstore a b c ∧ memWrite s.mem (s.regNat a) (s.regNat b) (s.getReg c) = .ok t.mem) ∨
      (∃ a b c r, i = .map a b c ∧ allocate (s.allocOk (s.regNat c)) s.mem (s.regNat c) = .ok r ∧ t.mem = r.1) ∨
      (∃ a b c, i = .unmap a b c ∧ free s.mem (s.regNat c) = .ok t.mem) ∨
      (∃ a b c, i = .loadp a b c ∧ replaceZero s.mem (s.regNat b) = .ok t.mem))) := by
  have reg : ∀ (a : RegIx) (v : Word) (r : RegIx), some a ≠ some r → (s.setReg a v).getReg r = s.getReg r := by
    intro a v r hr
    rw [State.setReg_getReg, if_neg]
    intro e; exact hr (by rw [e])
  cases i with
  | cmov a b c =>
    simp only [exec, execCmov] at h
    split at h <;> cases h <;> right
    · exact ⟨rfl, fun _ => rfl, by simp, .inl rfl, .inl rfl, reg a _, rfl, .inl rfl⟩
    · exact ⟨rfl, fun _ => rfl, by simp, .inl rfl, .inl rfl, fun r _ => rfl, rfl, .inl rfl⟩
  | sload a b c =>
    rcases attempt_cases h with ⟨v, hv, hk⟩ | ⟨c, -, rfl⟩
    · cases hk; right
      exact ⟨rfl, fun _ => rfl, by simp, .inl rfl, .inl rfl, reg a _, rfl, .inl rfl⟩
    · exact .inl ⟨c, rfl⟩
  | sstore a b c =>
    rcases attempt_cases h with ⟨v, hv, hk⟩ | ⟨c, -, rfl⟩
    · cases hk; right
      exact ⟨rfl, fun _ => rfl, by simp, .inl rfl, .inl rfl, fun r _ => rfl, rfl, .inr (.inl ⟨a, b, c, rfl, hv⟩)⟩
    · exact .inl ⟨c, rfl⟩
  | add a b c => cases h; right; exact ⟨rfl, fun _ => rfl, by simp, .inl rfl, .inl rfl, reg a _, rfl, .inl rfl⟩
  | mul a b c => cases h; right; exact ⟨rfl, fun _ => rfl, by simp, .inl rfl, .inl rfl, reg a _, rfl, .inl rfl⟩
  | div a b c =>
    simp only [exec, execDiv] at h
    split at h <;> cases h
    · exact .inl ⟨_, rfl⟩
    · right; exact ⟨rfl, fun _ => rfl, by simp, .inl rfl, .inl rfl, reg a _, rfl, .inl rfl⟩
  | nand a b c => cases h; right; exact ⟨rfl, fun _ => rfl, by simp, .inl rfl, .inl rfl, reg a _, rfl, .inl rfl⟩
  | halt a b c => cases h; right; exact ⟨rfl, fun _ => rfl, by simp, .inl rfl, .inl rfl, fun r _ => rfl, rfl, .inl rfl⟩
  | map a b c =>
    rcases attempt_cases h with ⟨v, hv, hk⟩ | ⟨c, -, rfl⟩
    · cases hk; right
      refine ⟨rfl, fun _ => rfl, by simp, .inl rfl, .inl rfl, ?_, rfl, .inr (.inr (.inl ⟨a, b, c, v, rfl, hv, rfl⟩))⟩
      intro r hr
      rw [State.setReg_getReg, if_neg (fun e => hr (by rw [e]; rfl))]
      rfl
    · exact .inl ⟨c, rfl⟩
  | unmap a b c =>
    rcases attempt_cases h with ⟨v, hv, hk⟩ | ⟨c, -, rfl⟩
    · cases hk; right
      exact ⟨rfl, fun _ => rfl, by simp, .inl rfl, .inl rfl, fun r _ => rfl, rfl, .inr (.inr (.inr (.inl ⟨a, b, c, rfl, hv⟩)))⟩
    · exact .inl ⟨c, rfl⟩
  | out a b c =>
    simp only [exec, execOut] at h
    split at h <;> cases h
    · right; exact ⟨rfl, fun _ => rfl, by simp, .inr ⟨rfl, _, rfl⟩, .inl rfl, fun r _ => rfl, rfl, .inl rfl⟩
    · exact .inl ⟨_, rfl⟩
  | inp a b c =>
    simp only [exec, execInp, State.inByte] at h
    cases hi : s.inp with
    | nil =>
      simp only [hi] at h; cases h; right
      exact ⟨rfl, fun _ => rfl, by simp, .inl rfl, .inl hi, reg c _, rfl, .inl rfl⟩
    | cons x xs =>
      simp only [hi] at h; cases h; right
      refine ⟨rfl, fun _ => rfl, by simp, .inl rfl, .inr ⟨rfl, x, rfl⟩, ?_, rfl, .inl rfl⟩
      intro r hr
      rw [State.setReg_getReg, if_neg (fun e => hr (by rw [e]; rfl))]
      rfl
  | loadp a b c =>
    simp only [exec, execLoadp] at h
    split at h
    · rcases attempt_cases h with ⟨v, hv, hk⟩ | ⟨c, -, rfl⟩
      · cases hk; right
        refine ⟨rfl, fun h => absurd rfl h, ?_, .inl rfl, .inl rfl, fun r _ => rfl, rfl, .inr (.inr (.inr (.inr ⟨a, b, c, rfl, hv⟩)))⟩
        rintro a' b' c' e; cases e; rfl
      · exact .inl ⟨c, rfl⟩
    · cases h; right
      refine ⟨rfl, fun h => absurd rfl h, ?_, .inl rfl, .inl rfl, fun r _ => rfl, rfl, .inl rfl⟩
      rintro a' b' c' e; cases e; rfl
  | loadi a imm => cases h; right; exact ⟨rfl, fun _ => rfl, by simp, .inl rfl, .inl rfl, reg a _, rfl, .inl rfl⟩
  | unrecognized a b c => cases h; exact .inl ⟨_, rfl⟩

/-- Everything a step can do: nothing once the run has ended (R21), the failed fetch (R163), or the fetched
instruction after the increment (R121). -/
theorem step_cases {s t : State} (h : step s = .next t) :
    (s.status ≠ .running ∧ t = s) ∨
    (s.status = .running ∧ s.mem.wordCount 0 ≤ s.pc ∧ t = s.setStatus (.fatal .fetchOutOfBounds)) ∨
    (s.status = .running ∧ ∃ w, memRead s.mem 0 s.pc = .ok w ∧ exec (decode w) s.advance = .next t) := by
  unfold step at h
  split at h
  · rename_i hs
    rcases attempt_cases h with ⟨w, hw, hk⟩ | ⟨c, hc, rfl⟩
    · exact .inr (.inr ⟨hs, w, fetchWord_ok.1 hw, hk⟩)
    · have := fetchWord_error hc; subst this
      rw [fetchWord_eq] at hc
      split at hc
      · exact absurd hc (by simp)
      · rename_i hp; exact .inr (.inl ⟨hs, by omega, rfl⟩)
  · rename_i hs; cases h; exact .inl ⟨by simp [hs], rfl⟩
  · rename_i hs; cases h; exact .inl ⟨by simp [hs], rfl⟩

/-- A run of one step more. -/
theorem run_succ {s u : State} (n : Nat) (h : step s = .next u) :
    Sys2Proof.core.run (n + 1) s = Sys2Proof.core.run n u := by
  have h' : Sys2Proof.core.step s = .next u := h
  rw [Host.Core.run.eq_2 Sys2Proof.core s n, h']

/-- A word placed where the fetch reads is what the next step runs. -/
theorem step_withFetchWord (s : State) (nbits w : Nat) :
    step (s.withFetchWord nbits w) =
      exec (decode (BitVec.ofNat 32 (w % 2 ^ nbits))) (s.withFetchWord nbits w).advance := by
  have hl : s.pc < max (s.mem.entry 0).len (s.pc + 1) := by omega
  have hr := Cells.read_write (s.mem.entry 0).cells s.pc (BitVec.ofNat 32 (w % 2 ^ nbits)) s.pc
  rw [if_pos rfl] at hr
  have hm : fetchWord (s.withFetchWord nbits w) = .ok (BitVec.ofNat 32 (w % 2 ^ nbits)) := by
    rw [fetchWord_eq]
    refine (if_pos hl).trans ?_
    exact congrArg Except.ok hr
  show attempt (fetchWord _) _ _ = _
  rw [hm]
  rfl

end Sys2Proof.Machine
end

