-- ==== Sys2Proof/Laws/PerInstr.lean ====
section
/-! SUPPORT. Families of statements about instructions as syntax, one lemma per constructor. -/

namespace Sys2Proof.Laws

/-- Every decoded instruction is well formed: its field types hold exactly the operand numbers of R72. -/
def WellFormedAlways.Statement (i : Instr) : Prop := i.WellFormed

theorem r3_wf {op : Nat} (h : AsmForm.opOk op = true) (a b c : RegIx) :
    (AsmForm.r3 op a.val b.val c.val).wf = true := by
  simp [AsmForm.wf, AsmForm.regOk, Config.nregs, h, a.isLt, b.isLt, c.isLt]

theorem WellFormedAlways.cmov (a b c : RegIx) : WellFormedAlways.Statement (.cmov a b c) := r3_wf rfl a b c
theorem WellFormedAlways.sload (a b c : RegIx) : WellFormedAlways.Statement (.sload a b c) := r3_wf rfl a b c
theorem WellFormedAlways.sstore (a b c : RegIx) : WellFormedAlways.Statement (.sstore a b c) := r3_wf rfl a b c
theorem WellFormedAlways.add (a b c : RegIx) : WellFormedAlways.Statement (.add a b c) := r3_wf rfl a b c
theorem WellFormedAlways.mul (a b c : RegIx) : WellFormedAlways.Statement (.mul a b c) := r3_wf rfl a b c
theorem WellFormedAlways.div (a b c : RegIx) : WellFormedAlways.Statement (.div a b c) := r3_wf rfl a b c
theorem WellFormedAlways.nand (a b c : RegIx) : WellFormedAlways.Statement (.nand a b c) := r3_wf rfl a b c
theorem WellFormedAlways.halt (a b c : RegIx) : WellFormedAlways.Statement (.halt a b c) := r3_wf rfl a b c
theorem WellFormedAlways.map (a b c : RegIx) : WellFormedAlways.Statement (.map a b c) := r3_wf rfl a b c
theorem WellFormedAlways.unmap (a b c : RegIx) : WellFormedAlways.Statement (.unmap a b c) := r3_wf rfl a b c
theorem WellFormedAlways.out (a b c : RegIx) : WellFormedAlways.Statement (.out a b c) := r3_wf rfl a b c
theorem WellFormedAlways.inp (a b c : RegIx) : WellFormedAlways.Statement (.inp a b c) := r3_wf rfl a b c
theorem WellFormedAlways.loadp (a b c : RegIx) : WellFormedAlways.Statement (.loadp a b c) := r3_wf rfl a b c
theorem WellFormedAlways.loadi (a : RegIx) (imm : Imm) : WellFormedAlways.Statement (.loadi a imm) := by
  have := imm.isLt
  simp only [WellFormedAlways.Statement, Instr.WellFormed, Instr.asm, AsmForm.wf, AsmForm.regOk, AsmForm.immOk,
    Config.nregs, Config.immBits, Bool.and_eq_true, decide_eq_true_eq]
  exact ⟨a.isLt, this⟩
theorem WellFormedAlways.unrecognized (a b c : RegIx) : WellFormedAlways.Statement (.unrecognized a b c) :=
  r3_wf rfl a b c

end Sys2Proof.Laws
end

