-- ==== Sys2Proof/Tests/Slice0.lean ====
section
/-! SUPPORT. Tests whose expected results come from spec/95_test_vectors.md or the rules' own examples, and for every
statement with hypotheses a witness that meets them. -/

namespace Sys2Proof.Tests

open Sys2Proof Sys2Proof.Machine

/-! ### Helpers -/

/-- Eight registers from a list, 0 beyond its end. -/
def regsOf (x : List Word) : Vector Word 8 :=
  #v[x.getD 0 0, x.getD 1 0, x.getD 2 0, x.getD 3 0, x.getD 4 0, x.getD 5 0, x.getD 6 0, x.getD 7 0]

/-- A running machine with these registers, these live or freed segments and this pool. -/
def mk (x : List Word) (table : List Segment) (pool : List Nat) : State :=
  { State.reset with regs := regsOf x, mem := { table := table, pool := pool } }

/-- The next state, if that is the outcome. -/
def nextOf (r : Result) : Option State :=
  match r with
  | .next t => some t
  | .fault _ => none
  | .refused _ => none

/-- The state after the word `w` is fetched and run. -/
def after (w : Nat) (s : State) : Option State := nextOf (step (s.withFetchWord 32 w))

/-- A program of one word, the CMOV that does nothing. -/
def prog1 : Segment := Segment.ofWords [0]

/-! ### Well-formedness: one ill-formed term for each check (30_encoding.md R72) -/

theorem test_wf_refuses_opcode_13_as_r3 : (AsmForm.r3 13 0 0 0).wf = false := by decide
theorem test_wf_refuses_opcode_16 : (AsmForm.r3 16 0 0 0).wf = false := by decide
theorem test_wf_refuses_register_a : (AsmForm.r3 3 8 0 0).wf = false := by decide
theorem test_wf_refuses_register_b : (AsmForm.r3 3 0 8 0).wf = false := by decide
theorem test_wf_refuses_register_c : (AsmForm.r3 3 0 0 8).wf = false := by decide
theorem test_wf_refuses_register_a_of_li : (AsmForm.li 8 0).wf = false := by decide
theorem test_wf_refuses_immediate : (AsmForm.li 0 33554432).wf = false := by decide
theorem test_wf_accepts_limits :
    (AsmForm.r3 15 7 7 7).wf = true ∧ (AsmForm.li 7 33554431).wf = true := by decide

/-! ### Decoding: table T7, a word of every constructor -/

theorem test_decode_cmov : decode 0x000001E1 = .cmov 7 4 1 := by decide
theorem test_decode_cmov_ignored_bits : decode 0x0FFFFE00 = .cmov 0 0 0 := by decide
theorem test_decode_sload : decode 0x10000153 = .sload 5 2 3 := by decide
theorem test_decode_sstore : decode 0x2000009C = .sstore 2 3 4 := by decide
theorem test_decode_add : decode 0x3FFFFE53 = .add 1 2 3 := by decide
theorem test_decode_mul : decode 0x40000092 = .mul 2 2 2 := by decide
theorem test_decode_div : decode 0x5000000A = .div 0 1 2 := by decide
theorem test_decode_nand : decode 0x60000049 = .nand 1 1 1 := by decide
theorem test_decode_halt : decode 0x7FFFFFFF = .halt 7 7 7 := by decide
theorem test_decode_map : decode 0x80000011 = .map 0 2 1 := by decide
theorem test_decode_unmap : decode 0x90000002 = .unmap 0 0 2 := by decide
theorem test_decode_out : decode 0xA0000006 = .out 0 0 6 := by decide
theorem test_decode_inp : decode 0xB0000001 = .inp 0 0 1 := by decide
theorem test_decode_loadp : decode 0xC0000016 = .loadp 0 2 6 := by decide
theorem test_decode_loadi : decode 0xDFFFFFFF = .loadi 7 33554431 := by decide
theorem test_decode_unrecognized_14 : decode 0xE0000000 = .unrecognized 0 0 0 := by decide
theorem test_decode_unrecognized_15 : decode 0xF1234567 = .unrecognized 5 4 7 := by decide

/-- R183: the example file's first word, as bytes. -/
theorem test_decode_bytes : decodeBytes [0xD0, 0x00, 0x00, 0x48, 0xA0] = .ok (.loadi 0 72, [0xA0]) := by decide
theorem test_decode_bytes_truncated : decodeBytes [0xD0, 0x00, 0x00] = .error .truncated := by decide
theorem test_decode_table_word : decodeTableWord 32 0x300000CA = some (.add 3 1 2) := by decide

/-- R70, R72: the assembler's lines of P1 and of a word with ignored bits set. -/
theorem test_text : wordText 0xD0000048 = "LOADI r0, 72" ∧ wordText 0x10000153 = "SLOAD r5, r2, r3" := by decide
theorem test_text_raw : wordText 0x72468A00 = ".word 1917225472" := by decide
theorem test_loadp_text : wordText 0xC0000016 = "LOADP r2, r6" := by decide

/-! ### The codec: tables T1 to T6 -/

theorem test_fitss : Codec.fitss (-4) 3 = true ∧ Codec.fitss 4 3 = false ∧ Codec.fitss 0 0 = true ∧
    Codec.fitss 1 0 = false ∧ Codec.fitss 1 1 = false ∧ Codec.fitss (-9223372036854775808) 64 = true := by decide
theorem test_fitsu : Codec.fitsu 33554431 25 = true ∧ Codec.fitsu 33554432 25 = false ∧ Codec.fitsu 1 0 = false := by
  decide
theorem test_getu : Codec.getu (0x12345678 : Word) 8 4 = .value 103 ∧ Codec.getu (0xFFFFFFFF : Word) 0 32 = .value 0 ∧
    Codec.getu (0x12345678 : Word) 8 28 = .badField := by decide
theorem test_gets : Codec.gets (0x00000800 : Word) 4 8 = .value (-8) ∧
    Codec.gets (0x80000000 : Word) 32 0 = .value (-2147483648) ∧ Codec.gets (0x40000000 : Word) 1 30 = .value (-1) := by
  decide
theorem test_newu : Codec.newu (0x00000040 : Word) 3 6 2 = .value 0x000000C0 ∧
    Codec.newu (0 : Word) 8 24 256 = .doesNotFit ∧ Codec.newu (0 : Word) 8 28 256 = .badField := by decide
theorem test_news : Codec.news (0xFF0000FF : Word) 8 8 (-2) = .value 0xFF00FEFF ∧
    Codec.news (0 : Word) 1 0 1 = .doesNotFit ∧ Codec.news (0 : Word) 8 8 (-128) = .value 0x00008000 := by decide

/-- R93's worked case: `gets(0x00000800, 4, 8)`, the shifted registers. -/
theorem test_shifts : Codec.getsByShifts (0x00000800 : Word) 4 8 = 0xFFFFFFF8 ∧
    Codec.getuByShifts (0x00000800 : Word) 4 8 = 0x00000008 := by decide

/-- R72: `LOADI r7, 12` built by packs. -/
theorem test_pack_li : packLI 7 12 = .value 0xDE00000C := by decide

/-! ### Single steps: tables T9 to T18 -/

theorem test_cmov_top_bit_counts :
    (after 0x00000053 (mk [0, 5, 9, 0x80000000] [prog1] [])).map (fun t => t.getReg 1) = some 9 := by decide
theorem test_cmov_reads_the_old_condition :
    (after 0x000000D3 (mk [0, 0, 1, 7] [prog1] [])).map (fun t => t.getReg 3) = some 1 := by decide
theorem test_add_wraps : (after 0x300000CA (mk [0, 0xFFFFFFFF, 1, 7] [prog1] [])).map
    (fun t => (t.getReg 3, t.pc, t.status)) = some (0, 1, .running) := by decide
theorem test_add_reads_the_old_value :
    (after 0x30000049 (mk [0, 0xC0000000] [prog1] [])).map (fun t => t.getReg 1) = some 0x80000000 := by decide
theorem test_mul_wraps :
    (after 0x400000CA (mk [0, 0x01FFFFFF, 0x01FFFFFF] [prog1] [])).map (fun t => t.getReg 3) = some 0xFC000001 := by
  decide
theorem test_div_is_unsigned :
    (after 0x500000CA (mk [0, 0xFFFFFFFF, 2] [prog1] [])).map (fun t => t.getReg 3) = some 0x7FFFFFFF := by decide
theorem test_div_by_zero : (after 0x500000CA (mk [0, 5, 0, 9] [prog1] [])).map
    (fun t => (t.getReg 3, t.pc, t.status)) = some (9, 1, .fatal .divideByZero) := by decide
theorem test_nand : (after 0x600000CA (mk [0, 0xF0F0F0F0, 0xFF00FF00] [prog1] [])).map
    (fun t => t.getReg 3) = some 0x0FFF0FFF := by decide
theorem test_loadi_a_is_bits_27_25 : (after 0xD2000003 (mk [4, 9] [prog1] [])).map
    (fun t => (t.getReg 1, t.getReg 0)) = some (3, 4) := by decide
theorem test_loadi_replaces_the_register :
    (after 0xDE000000 (mk [0, 0, 0, 0, 0, 0, 0, 0xFFFFFFFF] [prog1] [])).map (fun t => t.getReg 7) = some 0 := by decide

theorem test_sload : (after 0x10000153 (mk [0, 0, 1, 2] [prog1, Segment.ofWords [10, 20, 30]] [])).map
    (fun t => t.getReg 5) = some 30 := by decide
theorem test_sload_address_before_index : (after 0x10000153 (mk [0, 0, 2, 99] [prog1, Segment.ofWords [10]] [])).map
    (fun t => (t.getReg 5, t.status)) = some (0, .fatal .segAddrOutOfRange) := by decide
theorem test_sstore : (after 0x2000009C (mk [0, 0, 1, 2, 99] [prog1, Segment.zeroed 3] [])).map
    (fun t => (t.mem.entry 1).data) = some [0, 0, 99] := by decide
theorem test_sstore_freed : (after 0x2000009C (mk [0, 0, 1, 0, 99] [prog1, Segment.freed] [1])).map
    (fun t => t.status) = some (.fatal .segIndexOutOfRange) := by decide
theorem test_map_reuses_the_top : (after 0x80000011 (mk [0, 4] [prog1, Segment.freed, Segment.freed] [2, 1])).map
    (fun t => (t.getReg 2, t.mem.pool, (t.mem.entry 2).data, t.mem.table.length)) = some (2, [1], [0, 0, 0, 0], 3) := by
  decide
theorem test_map_refused : (after 0x80000011 ((mk [0, 4] [prog1] []).setAllocParam (.within 4))).map
    (fun t => (t.getReg 2, t.status)) = some (0, .fatal .resourceExhausted) := by decide
theorem test_map_within_its_limit : (after 0x80000011 ((mk [0, 4] [prog1] []).setAllocParam (.within 5))).map
    (fun t => (t.getReg 2, t.status)) = some (1, .running) := by decide
theorem test_unmap : (after 0x90000002 (mk [0, 0, 1] [prog1, Segment.ofWords [7]] [])).map
    (fun t => (t.mem.pool, t.mem.entry 1, t.getReg 2)) = some ([1], Segment.freed, 1) := by decide
theorem test_unmap_twice : (after 0x90000002 (mk [0, 0, 1] [prog1, Segment.freed] [1])).map
    (fun t => (t.mem.pool, t.status)) = some ([1], .fatal .freeInvalid) := by decide
theorem test_halt : (after 0x7FFFFFFF (mk [] [prog1] [])).map
    (fun t => (t.status, t.pc, t.exitSignal)) = some (.halted, 1, some 0) := by decide
theorem test_out_255 : (after 0xA0000000 (mk [255] [prog1] [])).map (fun t => t.out) = some [0xFF] := by decide
theorem test_out_300 : (after 0xA0000000 (mk [300] [prog1] [])).map
    (fun t => (t.out, t.status)) = some ([], .fatal .outputOutOfRange) := by decide
theorem test_inp_byte : (after 0xB0000001 { mk [0, 7] [prog1] [] with inp := [0xFF, 0x42] }).map
    (fun t => (t.getReg 1, t.inp)) = some (0xFF, [0x42]) := by decide
theorem test_inp_end : (after 0xB0000001 (mk [0, 7] [prog1] [])).map
    (fun t => (t.getReg 1, t.status)) = some (0xFFFFFFFF, .running) := by decide
theorem test_loadp_jump : (after 0xC0000016 (mk [0, 0, 0, 0, 0, 0, 5] [prog1] [])).map (fun t => t.pc) = some 5 := by
  decide
theorem test_loadp_copy : (after 0xC0000016 (mk [0, 0, 1] [prog1, Segment.ofWords [8, 0, 9]] [])).map
    (fun t => ((t.mem.entry 0).data, (t.mem.entry 1).data, t.pc)) = some ([8, 0, 9], [8, 0, 9], 0) := by decide
theorem test_unrecognized : (after 0xFFFFFFFF (mk [] [prog1] [])).map
    (fun t => (t.status, t.pc)) = some (.fatal .unrecognizedOpcode, 1) := by decide
theorem test_empty_program : (nextOf (step State.reset)).map
    (fun t => (t.status, t.pc)) = some (.fatal .fetchOutOfBounds, 0) := by decide

/-- R113: an index of 8 is never register 0. -/
theorem test_get_8 : getWide (mk [5] [prog1] []) 8 = .error .regIndexOutOfRange := by decide

/-- R183: the file of P1 starts the program of P1. -/
theorem test_boot : programOfBytes [0xD0, 0x00, 0x00, 0x48, 0xA0, 0x00, 0x00, 0x00, 0x70, 0x00, 0x00, 0x00] =
    .ok [0xD0000048, 0xA0000000, 0x70000000] := by decide

/-! ### Witnesses: states and operands that meet the hypotheses of the statements -/

/-- A program of one word, register 1 holding 1, and one mapped segment of three words. -/
def s1 (w : Word) : State := mk [0, 1, 1, 2, 99] [Segment.ofWords [w], Segment.ofWords [10, 20, 30]] []

theorem witness_InvariantHoldsAtEveryStart : ∃ prog : List Word, prog.length < 2 ^ 32 := ⟨[0x70000000], by decide⟩

theorem witness_EveryStepKeepsTheInvariant : ∃ s t : State, Inv s ∧ step s = .next t :=
  ⟨s1 0x80000011, _, by decide, rfl⟩

theorem witness_StepRunsTheDecodedInstruction :
    ∃ (s : State) (w : Word), s.status = .running ∧ memRead s.mem 0 s.pc = .ok w :=
  ⟨s1 0x70000000, 0x70000000, by decide, by decide⟩

theorem witness_FetchPastTheEndIsFatal :
    ∃ s : State, s.status = .running ∧ s.mem.wordCount 0 ≤ s.pc ∧ s.mem.wordCount 0 = 1 :=
  ⟨(s1 0).setPc 1, by decide, by decide, by decide⟩

theorem witness_EndedRunNeverChanges :
    (∃ s : State, s.status = .halted ∧ s.status ≠ .running) ∧ ∃ s : State, s.status = .fatal .divideByZero ∧ s.status ≠ .running :=
  ⟨⟨(s1 0).setStatus .halted, rfl, by decide⟩, ⟨(s1 0).setStatus (.fatal .divideByZero), rfl, by decide⟩⟩

theorem witness_OnlyHaltEndsARunCleanly :
    ∃ s t : State, s.status = .running ∧ step s = .next t ∧ t.status = .halted :=
  ⟨s1 0x70000000, _, rfl, rfl, by decide⟩

theorem witness_PcAdvancesByOneExceptForLoadp :
    (∃ (s t : State) (w : Word), s.status = .running ∧ memRead s.mem 0 s.pc = .ok w ∧ step s = .next t ∧
      (decode w).tag ≠ .loadp) ∧
    ∃ (s t : State) (w : Word) (a b c : RegIx), s.status = .running ∧ memRead s.mem 0 s.pc = .ok w ∧
      step s = .next t ∧ decode w = .loadp a b c ∧ t.status = .running :=
  ⟨⟨s1 0x300000CA, _, 0x300000CA, rfl, by decide, rfl, by decide⟩,
   ⟨s1 0xC0000007, _, 0xC0000007, 0, 0, 7, rfl, by decide, rfl, by decide, by decide⟩⟩

theorem witness_StreamsOnlyMoveForward :
    (∃ s t : State, Sys2Proof.core.run 1 s = .next t) ∧
    (∃ (i : Instr) (s t : State), exec i s = .next t ∧ i.tag = .out ∧ t.out = [1]) ∧
    ∃ (i : Instr) (s t : State), exec i s = .next t ∧ i.tag = .inp ∧ s.inp = [5] :=
  ⟨⟨s1 0xA0000001, _, rfl⟩, ⟨.out 0 0 1, s1 0, _, rfl, rfl, by decide⟩,
   ⟨.inp 0 0 1, (s1 0).setInp [5], _, rfl, rfl, rfl⟩⟩

theorem witness_FatalErrorsArePrecise :
    (∃ (i : Instr) (s t : State), s.status = .running ∧ exec i s = .next t ∧ t.status = .fatal .divideByZero) ∧
    (∃ s t : State, s.status = .running ∧ step s = .next t ∧ t.status = .fatal .fetchOutOfBounds) ∧
    ∃ s t : State, s.status = .running ∧ step s = .next t ∧ t.status = .fatal .unrecognizedOpcode :=
  ⟨⟨.div 1 1 0, s1 0, _, rfl, rfl, by decide⟩, ⟨State.reset, _, rfl, rfl, by decide⟩,
   ⟨s1 0xE0000000, _, rfl, rfl, by decide⟩⟩

theorem witness_InstructionsWriteOnlyTheirRegister :
    ∃ (i : Instr) (s t : State) (r : RegIx), exec i s = .next t ∧ mayWrite i ≠ some r :=
  ⟨.add 3 1 2, s1 0, _, 4, rfl, by decide⟩

theorem witness_InstructionsDependOnlyOnRegistersRead :
    (∃ (i : Instr) (s t : State) (r : RegIx), r ∉ mayRead i ∧ i.tag ≠ .map ∧ exec i s = .next t ∧ mayWrite i = some r) ∧
    (∃ (i : Instr) (s t : State) (r : RegIx), r ∉ mayRead i ∧ i.tag ≠ .map ∧ exec i s = .next t ∧ mayWrite i = none) ∧
    ∃ (i : Instr) (s t : State) (r : RegIx) (v : Word), r ∉ mayRead i ∧ i.tag = .map ∧
      (∀ n, (s.setReg r v).allocOk n = s.allocOk n) ∧ exec i s = .next t :=
  ⟨⟨.add 3 1 2, s1 0, _, 3, by decide, by decide, rfl, rfl⟩, ⟨.sstore 1 3 4, s1 0, _, 7, by decide, by decide, rfl, rfl⟩,
   ⟨.map 0 2 1, s1 0, _, 5, 9, by decide, rfl, fun _ => rfl, rfl⟩⟩

theorem witness_CmovMovesWhenTheConditionIsNotZero :
    (∃ (s : State) (c : RegIx), s.getReg c ≠ 0) ∧ ∃ (s : State) (c : RegIx), s.getReg c = 0 :=
  ⟨⟨s1 0, 1, by decide⟩, ⟨s1 0, 0, by decide⟩⟩

theorem witness_DivIsTheFloorQuotient :
    (∃ (s : State) (c : RegIx), s.getReg c ≠ 0) ∧ ∃ (s : State) (c : RegIx), s.getReg c = 0 :=
  ⟨⟨s1 0, 1, by decide⟩, ⟨s1 0, 0, by decide⟩⟩

/-- The last word, the first index past the end, the first address past the table, a freed address. -/
theorem witness_SloadReadsOneWord :
    (∃ (s : State) (b c : RegIx), s.regNat b < s.mem.table.length ∧ s.regNat c < s.mem.wordCount (s.regNat b) ∧
      s.regNat c + 1 = s.mem.wordCount (s.regNat b)) ∧
    (∃ (s : State) (b : RegIx), s.mem.table.length ≤ s.regNat b ∧ s.regNat b = s.mem.table.length) ∧
    ∃ (s : State) (b c : RegIx), s.regNat b < s.mem.table.length ∧ s.mem.wordCount (s.regNat b) ≤ s.regNat c ∧
      s.mem.wordCount (s.regNat b) = s.regNat c :=
  ⟨⟨s1 0, 1, 3, by decide, by decide, by decide⟩, ⟨s1 0, 3, by decide, by decide⟩,
   ⟨mk [0, 1, 3] [prog1, Segment.zeroed 3] [], 1, 2, by decide, by decide, by decide⟩⟩

theorem witness_SstoreWritesOneWord :
    (∃ (s : State) (a b : RegIx), s.regNat a < s.mem.table.length ∧ s.regNat b < s.mem.wordCount (s.regNat a) ∧
      s.regNat b + 1 = s.mem.wordCount (s.regNat a)) ∧
    (∃ (s : State) (a : RegIx), s.mem.table.length ≤ s.regNat a ∧ s.regNat a = s.mem.table.length) ∧
    ∃ (s : State) (a b : RegIx), s.regNat a < s.mem.table.length ∧ s.mem.wordCount (s.regNat a) ≤ s.regNat b ∧
      (s.mem.entry (s.regNat a)).live = false :=
  ⟨⟨s1 0, 1, 3, by decide, by decide, by decide⟩, ⟨s1 0, 3, by decide, by decide⟩,
   ⟨mk [0, 1] [prog1, Segment.freed] [1], 1, 0, by decide, by decide, by decide⟩⟩

/-- A memory of `n` live segments of no words. -/
theorem full_wf {n : Nat} (h0 : 0 < n) (h : n ≤ 2 ^ 32) :
    Memory.wf { table := List.replicate n (Segment.zeroed 0), pool := [] } := by
  refine ⟨by simpa using h0, by simpa [Config.maxSegments] using h, ?_, List.nodup_nil, by simp, ?_⟩
  · intro g hg
    rw [List.eq_of_mem_replicate hg]
    exact Segment.zeroed_wf (by norm_num)
  · intro p hp hf
    rw [List.length_replicate] at hp
    rw [Memory.entry_eq (g := Segment.zeroed 0) (by simp [hp])] at hf
    exact absurd hf (by decide)

theorem witness_MapAllocatesZeroWords :
    (∃ (s : State) (c : RegIx) (p : Nat) (rest : List Nat), s.mem.wf ∧ s.allocOk (s.regNat c) = true ∧
      s.mem.pool = p :: rest) ∧
    (∃ (s : State) (c : RegIx), s.mem.wf ∧ s.allocOk (s.regNat c) = true ∧ s.mem.pool = [] ∧
      s.mem.table.length < 2 ^ 32 ∧ s.mem.table.length = 2 ^ 32 - 1) ∧
    (∃ (s : State) (c : RegIx), s.mem.wf ∧ s.allocOk (s.regNat c) = false) ∧
    ∃ s : State, s.mem.wf ∧ s.mem.pool = [] ∧ s.mem.table.length = 2 ^ 32 :=
  ⟨⟨mk [0, 4] [prog1, Segment.freed, Segment.freed] [2, 1], 1, 2, [1], by decide, rfl, rfl⟩,
   ⟨mk [] (List.replicate (2 ^ 32 - 1) (Segment.zeroed 0)) [], 0, full_wf (by norm_num) (by norm_num), rfl, rfl,
     lt_of_eq_of_lt (List.length_replicate ..) (by norm_num), List.length_replicate ..⟩,
   ⟨(mk [0, 4] [prog1] []).setAllocParam (.within 4), 1, by decide, by decide⟩,
   ⟨mk [] (List.replicate (2 ^ 32) (Segment.zeroed 0)) [], full_wf (by norm_num) (by norm_num), rfl,
     List.length_replicate ..⟩⟩

theorem witness_UnmapFreesTheSegment :
    (∃ (s : State) (c : RegIx), s.regNat c < s.mem.table.length ∧ (s.mem.entry (s.regNat c)).live = true ∧
      s.regNat c + 1 = s.mem.table.length) ∧
    (∃ (s : State) (c : RegIx), s.mem.table.length = s.regNat c) ∧
    ∃ (s : State) (c : RegIx), (s.mem.entry (s.regNat c)).live = false ∧ s.regNat c < s.mem.table.length :=
  ⟨⟨s1 0, 1, by decide, by decide, by decide⟩, ⟨s1 0, 3, by decide⟩,
   ⟨mk [0, 1] [prog1, Segment.freed] [1], 1, by decide, by decide⟩⟩

theorem witness_HaltEndsTheRun : ∃ w : Word, w.toNat / 2 ^ 28 = 7 := ⟨0x7FFFFFFF, by decide⟩

theorem witness_OutAppendsOneByte :
    (∃ (s : State) (c : RegIx), (s.getReg c).toNat ≤ 255 ∧ (s.getReg c).toNat = 255) ∧
    ∃ (s : State) (c : RegIx), 255 < (s.getReg c).toNat ∧ (s.getReg c).toNat = 256 :=
  ⟨⟨mk [255] [prog1] [], 0, by decide, by decide⟩, ⟨mk [256] [prog1] [], 0, by decide, by decide⟩⟩

theorem witness_InReadsOneByteOrTheSentinel :
    (∃ (s : State) (v : Byte) (rest : List Byte), s.inp = v :: rest ∧ v = 0xFF) ∧ ∃ s : State, s.inp = [] :=
  ⟨⟨(s1 0).setInp [0xFF], 0xFF, [], rfl, rfl⟩, ⟨s1 0, rfl⟩⟩

theorem witness_LoadpCopiesAndJumps :
    (∃ (s : State) (b : RegIx), s.getReg b = 0) ∧
    (∃ (s : State) (b : RegIx), s.getReg b ≠ 0 ∧ s.regNat b < s.mem.table.length ∧
      (s.mem.entry (s.regNat b)).live = true ∧ s.regNat b + 1 = s.mem.table.length) ∧
    (∃ (s : State) (b : RegIx), s.getReg b ≠ 0 ∧ s.mem.table.length ≤ s.regNat b ∧
      s.mem.table.length = s.regNat b) ∧
    ∃ (s : State) (b : RegIx), s.getReg b ≠ 0 ∧ s.regNat b < s.mem.table.length ∧
      (s.mem.entry (s.regNat b)).live = false :=
  ⟨⟨s1 0, 0, by decide⟩, ⟨s1 0, 1, by decide, by decide, by decide, by decide⟩,
   ⟨s1 0, 3, by decide, by decide, by decide⟩,
   ⟨mk [0, 1] [prog1, Segment.freed] [1], 1, by decide, by decide, by decide⟩⟩

theorem witness_OnlyLoadpChangesALiveLength :
    (∃ (i : Instr) (s t : State) (p : Nat), s.mem.wf ∧ exec i s = .next t ∧ i.tag ≠ .loadp ∧
      (s.mem.entry p).live = true ∧ (t.mem.entry p).live = true) ∧
    ∃ (i : Instr) (s t : State) (p : Nat), s.mem.wf ∧ exec i s = .next t ∧ i.tag = .loadp ∧ p ≠ 0 ∧
      (s.mem.entry p).live = true ∧ (t.mem.entry p).live = true :=
  ⟨⟨.sstore 1 3 4, s1 0, _, 1, by decide, rfl, by decide, by decide, by decide⟩,
   ⟨.loadp 0 1 0, s1 0, _, 1, by decide, rfl, rfl, by decide, by decide, by decide⟩⟩

theorem witness_AllocationNeverReturnsALiveAddress :
    (∃ (m m' : Memory) (n s : Nat), m.wf ∧ allocate true m n = .ok (m', s) ∧ (m.entry 0).live = true ∧ m.pool = []) ∧
    ∃ (m m' : Memory) (n s : Nat), m.wf ∧ allocate true m n = .ok (m', s) ∧ m.pool ≠ [] :=
  ⟨⟨(s1 0).mem, _, 3, _, by decide, rfl, by decide, rfl⟩,
   ⟨(mk [] [prog1, Segment.freed] [1]).mem, _, 3, _, by decide, rfl, by decide⟩⟩

theorem witness_FreedAddressesAreReusedLastFirst :
    ∃ (m m1 m2 : Memory) (x y : Nat), free m x = .ok m1 ∧ free m1 y = .ok m2 :=
  ⟨(mk [] [prog1, prog1, prog1] []).mem, _, _, 1, 2, rfl, rfl⟩

theorem witness_LoadedProgramIsAValueCopy :
    (∃ (m m1 m2 : Memory) (s : Nat), s ≠ 0 ∧ replaceZero m s = .ok m1 ∧ memWrite m1 s 2 7 = .ok m2) ∧
    (∃ (m m1 m2 : Memory) (s : Nat), s ≠ 0 ∧ replaceZero m s = .ok m1 ∧ memWrite m1 0 2 7 = .ok m2) ∧
    ∃ (m m1 m2 : Memory) (s : Nat), s ≠ 0 ∧ replaceZero m s = .ok m1 ∧ free m1 s = .ok m2 :=
  ⟨⟨(s1 0).mem, _, _, 1, by decide, rfl, rfl⟩, ⟨(s1 0).mem, _, _, 1, by decide, rfl, rfl⟩,
   ⟨(s1 0).mem, _, _, 1, by decide, rfl, rfl⟩⟩

/-- The SSTORE is fetched at index 0, the word it writes is the next one. -/
theorem witness_StoreIntoTheProgramIsFetched :
    ∃ (a b c : RegIx) (s t : State), s.status = .running ∧ s.getReg a = 0 ∧ s.regNat b < s.mem.wordCount 0 ∧
      exec (.sstore a b c) s = .next t ∧ s.pc = s.regNat b :=
  ⟨0, 1, 2, (mk [0, 1, 0x70000000] [Segment.ofWords [0x2000000A, 0]] []).setPc 1, _, rfl, by decide, by decide, rfl,
    by decide⟩

theorem witness_ReadAfterWrite : ∃ (m m' : Memory) (s i : Nat) (v : Word), memWrite m s i v = .ok m' :=
  ⟨(s1 0).mem, _, 1, 2, 0, rfl⟩

theorem witness_SparseSegmentsRefineTheSpecsLists :
    (∃ (m : Memory) (s : Nat), s < m.table.length) ∧
    (∃ (m m' : Memory) (s i : Nat) (v : Word), memWrite m s i v = .ok m') ∧
    ∃ (b : Bool) (m m' : Memory) (n s : Nat), m.wf ∧ allocate b m n = .ok (m', s) :=
  ⟨⟨(s1 0).mem, 1, by decide⟩, ⟨(s1 0).mem, _, 1, 2, 0, rfl⟩, ⟨true, (s1 0).mem, _, 3, _, by decide, rfl⟩⟩

theorem witness_EqualSegmentsAreEqualData :
    ∃ g h : Segment, g.Wf ∧ h.Wf ∧ g.live = h.live ∧ g.data = h.data :=
  ⟨Segment.ofWords [1, 0, 2], Segment.ofWords [1, 0, 2], by decide, by decide, rfl, rfl⟩

theorem witness_DecodeOfEncodeIsTheInstruction : ∃ i : Instr, i.WellFormed := ⟨.loadi 7 33554431, by decide⟩

theorem witness_AssembledWordsHoldTheirOperands :
    (AsmForm.r3 15 7 7 7).wf = true ∧ (AsmForm.li 7 33554431).wf = true ∧ (AsmForm.li 7 33554432).wf = false := by
  decide

theorem witness_DecodedFieldsAreTheirBits :
    (∃ w : Word, (w.extractLsb' 28 4).toNat = 13) ∧ ∃ w : Word, (w.extractLsb' 28 4).toNat ≠ 13 :=
  ⟨⟨0xD0000048, by decide⟩, ⟨0xE0000000, by decide⟩⟩

theorem witness_PackedFieldsMakeTheInstructionWord :
    (AsmForm.r3 12 7 7 7).wf = true ∧ (AsmForm.li 7 33554431).wf = true ∧ (7 < 8 ∧ 2 ^ 25 ≤ 33554432) := by decide

theorem witness_DecoderPortsShowTheDecodedFields :
    (∃ iw : Word, (decoderPorts iw).tag = 13) ∧ ∃ iw : Word, (decoderPorts iw).tag ≠ 13 :=
  ⟨⟨0xDFFFFFFF, by decide⟩, ⟨0xFFFFFFFF, by decide⟩⟩

theorem witness_FitTestsAreTheirBounds : ∃ width : Nat, 1 ≤ width := ⟨1, le_refl _⟩

theorem witness_UnsignedExtractIsTheField :
    (∃ cw width lsb : Nat, lsb + width ≤ cw ∧ lsb + width = 32) ∧ ∃ cw width lsb : Nat, cw < lsb + width ∧ cw = 32 :=
  ⟨⟨32, 4, 28, by decide, rfl⟩, ⟨32, 5, 28, by decide, rfl⟩⟩

theorem witness_SignedExtractIsTwosComplement :
    (∃ cw width lsb : Nat, lsb + width ≤ cw ∧ 1 ≤ width) ∧ (∃ cw lsb : Nat, lsb ≤ cw) ∧
    ∃ cw width lsb : Nat, cw < lsb + width :=
  ⟨⟨32, 1, 31, by decide, by decide⟩, ⟨32, 32, by decide⟩, ⟨32, 1, 32, by decide⟩⟩

theorem witness_UnsignedPackOrsIntoTheField :
    (∃ cw width lsb value : Nat, lsb + width ≤ cw ∧ value < 2 ^ width ∧ value + 1 = 2 ^ width) ∧
    (∃ cw width lsb value : Nat, lsb + width ≤ cw ∧ 2 ^ width ≤ value ∧ value = 2 ^ width) ∧
    ∃ cw width lsb : Nat, cw < lsb + width :=
  ⟨⟨32, 8, 24, 255, by decide, by decide, by decide⟩, ⟨32, 8, 24, 256, by decide, by decide, by decide⟩,
   ⟨32, 8, 28, by decide⟩⟩

theorem witness_SignedPackOrsTheMaskedPattern :
    (∃ (cw width lsb : Nat) (value : Int), lsb + width ≤ cw ∧ Codec.fitss value width = true ∧ value = -128) ∧
    (∃ (cw width lsb : Nat) (value : Int), lsb + width ≤ cw ∧ Codec.fitss value width = false ∧ value = 128) ∧
    ∃ cw width lsb : Nat, cw < lsb + width :=
  ⟨⟨32, 8, 24, -128, by decide, by decide, rfl⟩, ⟨32, 8, 24, 128, by decide, by decide, rfl⟩, ⟨32, 8, 28, by decide⟩⟩

theorem witness_PackThenExtractRoundTrips :
    ∃ (cw width lsb : Nat) (word : BitVec cw), lsb + width ≤ cw ∧
      (∀ k, k < width → word.getLsbD (lsb + k) = false) ∧ Codec.fitsu 255 width = true ∧
      Codec.fitss (-128) width = true :=
  ⟨32, 8, 8, 0xFFFF00FF, by decide, by decide, by decide, by decide⟩

theorem witness_ShiftsGiveTheExtracts : ∃ cw width lsb : Nat, lsb + width ≤ cw ∧ 1 ≤ width :=
  ⟨32, 32, 0, by decide, by decide⟩

theorem witness_CarrierWidthDoesNotMatter :
    ∃ (word w : Word) (width lsb : Nat), lsb + width ≤ 32 ∧ Codec.newu word width lsb 255 = .value w ∧
      Codec.newu word width lsb 256 = .doesNotFit ∧ Codec.news word width lsb (-1) = .value w ∧
      Codec.news word width lsb 128 = .doesNotFit :=
  ⟨0, 0xFF000000, 8, 24, by decide, by decide, by decide, by decide, by decide⟩

theorem witness_ZeroFieldsAndWidthZeroGiveZero :
    (∃ (cw width lsb : Nat) (word : BitVec cw), lsb + width ≤ cw ∧
      (∀ k, k < width → word.getLsbD (lsb + k) = false)) ∧
    (∃ cw lsb : Nat, lsb ≤ cw ∧ lsb = 32) ∧ (∃ v : Nat, v ≠ 0) ∧ ∃ n : Int, n ≠ 0 :=
  ⟨⟨32, 31, 0, 0x80000000, by decide, by decide⟩, ⟨32, 32, by decide, rfl⟩, ⟨1, by decide⟩, ⟨-1, by decide⟩⟩

theorem witness_RegisterFileGetsWhatWasSet : (∃ i : Nat, i < 8 ∧ i = 7) ∧ ∃ i : Nat, 8 ≤ i ∧ i = 8 :=
  ⟨⟨7, by decide, rfl⟩, ⟨8, by decide, rfl⟩⟩

theorem witness_CodecPortsFlagBadFields :
    (∃ i : CodecIn, (codecPorts i).badField = true) ∧ ∃ i : CodecIn, i.op.toNat ≤ 1 ∧ 32 ≤ i.width.toNat :=
  ⟨⟨{ op := 3, word := 0, width := 8, lsb := 28, value := 0 }, by decide⟩,
   ⟨{ op := 0, word := 0, width := 32, lsb := 0, value := 0xFFFFFFFF }, by decide, by decide⟩⟩

theorem witness_RunShowsOutputAndSignal :
    (∃ s : State, s.status = .running) ∧ (∃ s : State, s.status = .halted) ∧
    ∃ s : State, s.status = .fatal .divideByZero :=
  ⟨⟨s1 0, rfl⟩, ⟨(s1 0).setStatus .halted, rfl⟩, ⟨(s1 0).setStatus (.fatal .divideByZero), rfl⟩⟩

theorem witness_ProgramBytesAreBigEndianWords :
    (∃ bs : List Byte, bs.length % 4 = 0 ∧ bs ≠ []) ∧ ∃ bs : List Byte, bs.length % 4 ≠ 0 :=
  ⟨⟨[0xD0, 0x00, 0x00, 0x48], by decide, by decide⟩, ⟨[0xD0, 0x00, 0x00], by decide⟩⟩

theorem witness_AllocParamIsFixedAndDefaultMapFailsOnlyWhenFull :
    (∃ s t : State, Sys2Proof.core.run 1 s = .next t ∧ s.status = .running) ∧
    (∃ (c : RegIx) (s t : State), s.mem.wf ∧ s.status = .running ∧ s.allocParam = .always ∧
      exec (.map 0 0 c) s = .next t ∧ t.status = .running) ∧
    ∃ (c : RegIx) (s t : State), s.mem.wf ∧ s.status = .running ∧ s.allocParam = .always ∧
      exec (.map 0 0 c) s = .next t ∧ s.mem.pool = [] ∧ s.mem.table.length = 2 ^ 32 := by
  refine ⟨⟨State.reset, _, rfl, rfl⟩, ⟨1, s1 0, _, by decide, rfl, rfl, rfl, rfl⟩, ?_⟩
  obtain ⟨t, ht⟩ : ∃ t, exec (.map 0 0 0) (mk [] (List.replicate (2 ^ 32) (Segment.zeroed 0)) []) = .next t :=
    attempt_next fun _ => ⟨_, rfl⟩
  exact ⟨0, _, t, full_wf (by norm_num) (by norm_num), rfl, rfl, ht, rfl, List.length_replicate ..⟩

end Sys2Proof.Tests
end

section
/-! SUPPORT. The facts that the statements about the scope (spec/00_scope.md) need: the start state field by field,
what a run keeps, and when a checked operation ends in its fatal error. -/

namespace Sys2Proof.Machine

/-! ### The start state -/

@[simp] theorem State.start_getReg (prog : List Word) (input : List Byte) (p : AllocParam) (r : RegIx) :
    (State.start prog input p).getReg r = 0 :=
  Vector.getElem_replicate r.isLt

@[simp] theorem State.start_entry_zero (prog : List Word) (input : List Byte) (p : AllocParam) :
    (State.start prog input p).mem.entry 0 = Segment.ofWords prog := rfl

/-! ### What a run keeps -/

/-- A run of `n + 1` steps that ends in a state is one step and a run of `n` steps. -/
theorem run_succ_cases {n : Nat} {s t : State} (h : Sys2Proof.core.run (n + 1) s = .next t) :
    ∃ u, step s = .next u ∧ Sys2Proof.core.run n u = .next t := by
  cases hs : step s with
  | next u => exact ⟨u, rfl, (run_succ n hs).symm.trans h⟩
  | fault r => nomatch r
  | refused r =>
    have hs' : Sys2Proof.core.step s = .refused r := hs
    rw [Host.Core.run.eq_2 Sys2Proof.core s n, hs'] at h
    cases h

/-- What every step keeps holds at the end of every run that starts with it. -/
theorem run_keeps {P : State → Prop} (hstep : ∀ s t, P s → step s = .next t → P t) {n : Nat} {s t : State}
    (hs : P s) (h : Sys2Proof.core.run n s = .next t) : P t := by
  induction n generalizing s with
  | zero => cases h; exact hs
  | succ n ih =>
    obtain ⟨u, hu, hrun⟩ := run_succ_cases h
    exact ih (hstep s u hs hu) hrun

/-! ### The parameter `alloc_ok` -/

theorem exec_allocParam {i : Instr} {s t : State} (h : exec i s = .next t) : t.allocParam = s.allocParam := by
  rcases exec_cases i s t h with ⟨c, rfl⟩ | ⟨-, -, -, -, -, -, hparam, -⟩
  · rfl
  · exact hparam

theorem step_allocParam {s t : State} (h : step s = .next t) : t.allocParam = s.allocParam := by
  rcases step_cases h with ⟨-, rfl⟩ | ⟨-, -, rfl⟩ | ⟨-, w, -, hexec⟩
  · rfl
  · rfl
  · exact (exec_allocParam hexec).trans s.advance_allocParam

theorem run_allocParam {n : Nat} {s t : State} (h : Sys2Proof.core.run n s = .next t) :
    t.allocParam = s.allocParam :=
  run_keeps (P := fun u => u.allocParam = s.allocParam) (fun _ _ hp hu => (step_allocParam hu).trans hp) rfl h

/-! ### When MAP raises -/

/-- A checked operation ends in a fatal error exactly by its own failure, when what may follow it raises none. -/
theorem attempt_fatal_iff {α : Type} {r : Except FatalCause α} {s t : State} {k : α → Result} {cause : FatalCause}
    (hk : ∀ v, k v = .next t → t.status ≠ .fatal cause) (h : attempt r s k = .next t) :
    t.status = .fatal cause ↔ r = .error cause := by
  rcases attempt_cases h with ⟨v, rfl, hv⟩ | ⟨c, rfl, rfl⟩
  · simp [hk v hv]
  · simp

/-- R32, R48: in a well formed memory a permitted allocation fails only with nothing to reuse and a full table. -/
theorem allocate_permitted_error {m : Memory} {n : Nat} {c : FatalCause} (h : m.wf) :
    allocate true m n = .error c ↔ c = .resourceExhausted ∧ m.pool = [] ∧ m.table.length = 2 ^ 32 := by
  obtain ⟨-, hlen, -⟩ := h
  have hfull : Config.maxSegments ≤ m.table.length ↔ m.table.length = 2 ^ 32 :=
    ⟨hlen.antisymm, fun e => e.ge⟩
  rw [allocate_error, hfull]
  simp

/-- R142: a running MAP raises a cause exactly when its allocation fails with it. -/
theorem execMap_fatal_iff {a b c : RegIx} {s t : State} {cause : FatalCause} (hrun : s.status = .running)
    (h : exec (.map a b c) s = .next t) :
    t.status = .fatal cause ↔ allocate (s.allocOk (s.regNat c)) s.mem (s.regNat c) = .error cause := by
  refine attempt_fatal_iff (fun r hr => ?_) h
  cases hr
  simp [hrun]

end Sys2Proof.Machine
end

section
/-! The statements of the family 00_scope. -/

namespace Sys2Proof.Machine

/-- Settles O1: the fields of the start state (R180), with segment 0 read back as the program's words (R20). -/
theorem startStateHoldsTheResetValues : Obligations.StartStateHoldsTheResetValues := by
  intro prog input p
  refine ⟨State.start_getReg prog input p, rfl, rfl, ?live, ?data, rfl, rfl, rfl, rfl, rfl⟩
  case live => rw [State.start_entry_zero]; rfl
  case data => rw [State.start_entry_zero, Segment.data_ofWords]

/-- Settles O3: the start memory is well formed for a program of fewer than 2^32 words, and `pc` is 0. -/
theorem invariantHoldsAtEveryStart : Obligations.InvariantHoldsAtEveryStart := by
  intro prog input p hlen
  have hpc : (State.start prog input p).pc = 0 := rfl
  exact ⟨start_wf input p hlen, by rw [hpc]; norm_num⟩

/-- Settles O60: the parameter is kept by every step, so by every run; under `always` MAP raises exactly where a
permitted allocation fails. -/
theorem allocParamIsFixedAndDefaultMapFailsOnlyWhenFull :
    Obligations.AllocParamIsFixedAndDefaultMapFailsOnlyWhenFull := by
  refine ⟨fun n s t h => run_allocParam h, ?_⟩
  intro a b c s t cause hwf hrun hparam h
  rw [execMap_fatal_iff hrun h, allocOk_always hparam, allocate_permitted_error hwf]

end Sys2Proof.Machine
end

section
/-! SUPPORT. The facts that the statements about the state (spec/10_state.md) need: what one instruction does to the
`pc`, the streams, the registers and the memory; what a step does once its run has ended or its fetch has succeeded;
the invariant; the segments as lists; and what a register that an instruction does not read changes. -/

namespace Sys2Proof.Machine

/-! ### What one instruction does to each part of the state -/

theorem eq_loadp_of_tag {i : Instr} (h : i.tag = .loadp) : ∃ a b c, i = .loadp a b c := by
  cases i with
  | loadp a b c => exact ⟨a, b, c, rfl⟩
  | _ => cases h

/-- R14: only LOADP changes the `pc` that an instruction begins with. -/
theorem exec_pc_of_ne_loadp {i : Instr} {s t : State} (hi : i.tag ≠ .loadp) (h : exec i s = .next t) :
    t.pc = s.pc := by
  rcases exec_cases i s t h with ⟨c, rfl⟩ | ⟨-, hpc, -⟩
  · rfl
  · exact hpc hi

/-- R153: a LOADP raises and leaves the `pc`, or jumps to the value of its register. -/
theorem exec_loadp_cases {a b c : RegIx} {s t : State} (h : exec (.loadp a b c) s = .next t) :
    (∃ cause, t = s.setStatus (.fatal cause)) ∨ t.pc = s.regNat c := by
  rcases exec_cases _ s t h with hfatal | ⟨-, -, hpc, -⟩
  · exact .inl hfatal
  · exact .inr (hpc a b c rfl)

/-- R15: an instruction keeps the bound on `pc`, since LOADP's target is a register's value. -/
theorem exec_pc_lt {i : Instr} {s t : State} (hpc : s.pc < 2 ^ 32) (h : exec i s = .next t) : t.pc < 2 ^ 32 := by
  by_cases hi : i.tag = .loadp
  · obtain ⟨a, b, c, rfl⟩ := eq_loadp_of_tag hi
    rcases exec_loadp_cases h with ⟨cause, rfl⟩ | htarget
    · exact hpc
    · rw [htarget]; exact (s.getReg c).isLt
  · rw [exec_pc_of_ne_loadp hi h]; exact hpc

/-- R151: only OUT changes the output, by one byte at its end. -/
theorem exec_out {i : Instr} {s t : State} (h : exec i s = .next t) :
    t.out = s.out ∨ (i.tag = .out ∧ ∃ b, t.out = s.out ++ [b]) := by
  rcases exec_cases i s t h with ⟨c, rfl⟩ | ⟨-, -, -, hout, -⟩
  · exact .inl rfl
  · exact hout

/-- R152: only IN changes the input, by one byte at its front. -/
theorem exec_inp {i : Instr} {s t : State} (h : exec i s = .next t) :
    t.inp = s.inp ∨ (i.tag = .inp ∧ ∃ b, s.inp = b :: t.inp) := by
  rcases exec_cases i s t h with ⟨c, rfl⟩ | ⟨-, -, -, -, hinp, -⟩
  · exact .inl rfl
  · exact hinp

/-- R13: a register that the table does not list as written keeps its value. -/
theorem exec_getReg_of_not_mayWrite {i : Instr} {s t : State} {r : RegIx} (hr : mayWrite i ≠ some r)
    (h : exec i s = .next t) : t.getReg r = s.getReg r := by
  rcases exec_cases i s t h with ⟨c, rfl⟩ | ⟨-, -, -, -, -, hreg, -⟩
  · rfl
  · exact hreg r hr

/-- R19, R31: with segment 0 live, which LOADP's copy needs, an instruction keeps memory well formed. -/
theorem exec_mem_wf {i : Instr} {s t : State} (hwf : s.mem.wf) (hlive : (s.mem.entry 0).live = true)
    (h : exec i s = .next t) : t.mem.wf := by
  rcases exec_cases i s t h with ⟨c, rfl⟩ | ⟨-, -, -, -, -, -, -, hmem⟩
  · exact hwf
  · rcases hmem with hsame | ⟨a, b, c, -, hwrite⟩ | ⟨a, b, c, r, -, halloc, hres⟩ | ⟨a, b, c, -, hfree⟩ |
      ⟨a, b, c, -, hcopy⟩
    · rw [hsame]; exact hwf
    · exact memWrite_wf hwf hwrite
    · rw [hres]; exact allocate_wf hwf (s.getReg c).isLt halloc
    · exact free_wf hwf hfree
    · exact replaceZero_wf hwf hlive hcopy

/-! ### What one step does -/

/-- R21: a step after the end of the run answers the same state. -/
theorem step_of_ended {s : State} (h : s.status ≠ .running) : step s = .next s := by
  unfold step
  split
  · contradiction
  · rfl
  · rfl

/-- R121: a step whose fetch succeeds is the fetched instruction after the increment. -/
theorem step_of_fetch {s : State} {w : Word} (hrun : s.status = .running) (hw : memRead s.mem 0 s.pc = .ok w) :
    step s = exec (decode w) s.advance := by
  unfold step
  rw [hrun]
  exact attempt_ok (fetchWord_ok.2 hw)

/-- R22: a step appends to the output and consumes the input from its front. -/
theorem step_streams {s t : State} (h : step s = .next t) : s.out <+: t.out ∧ t.inp <:+ s.inp := by
  rcases step_cases h with ⟨-, rfl⟩ | ⟨-, -, rfl⟩ | ⟨-, w, -, hexec⟩
  · exact ⟨List.prefix_rfl, List.suffix_rfl⟩
  · exact ⟨List.prefix_rfl, List.suffix_rfl⟩
  · constructor
    · rcases exec_out hexec with hout | ⟨-, b, hout⟩ <;> rw [hout]
      · exact List.prefix_rfl
      · exact List.prefix_append _ _
    · rcases exec_inp hexec with hinp | ⟨-, b, hinp⟩
      · rw [hinp]; exact List.suffix_rfl
      · exact ⟨[b], hinp.symm⟩

/-! ### The invariant -/

/-- R34: a read that succeeds is inside its segment. -/
theorem memRead_ok_lt {m : Memory} {p i : Nat} {w : Word} (h : memRead m p i = .ok w) : i < (m.entry p).len := by
  rw [memRead_eq] at h
  split at h
  · split at h
    · assumption
    · cases h
  · cases h

/-- R31: in well formed memory a segment that holds a word is live. -/
theorem Memory.live_of_lt_len {m : Memory} {p i : Nat} (hwf : m.wf) (hi : i < (m.entry p).len) :
    (m.entry p).live = true := by
  obtain ⟨-, -, hempty⟩ := Memory.wf_entry hwf p
  by_contra hdead
  have hlen := hempty (by simpa using hdead)
  omega

/-- The fetch is what carries a step: it shows that segment 0 is live, and that `pc + 1` is at most its length. -/
theorem step_inv {s t : State} (hinv : Inv s) (h : step s = .next t) : Inv t := by
  obtain ⟨hwf, hpc⟩ := hinv
  rcases step_cases h with ⟨-, rfl⟩ | ⟨-, -, rfl⟩ | ⟨-, w, hw, hexec⟩
  · exact ⟨hwf, hpc⟩
  · exact ⟨hwf, hpc⟩
  · have hfetch := memRead_ok_lt hw
    obtain ⟨-, hlen, -⟩ := Memory.wf_entry hwf 0
    have hnext : s.advance.pc < 2 ^ 32 := by rw [State.advance_pc]; omega
    exact ⟨exec_mem_wf (s := s.advance) hwf (Memory.live_of_lt_len hwf hfetch) hexec, exec_pc_lt hnext hexec⟩

/-! ### Segments as lists of words -/

/-- R35: writing a cell sets one element of the spec's list. -/
theorem Segment.data_write (g : Segment) (i : Nat) (v : Word) :
    Segment.data { g with cells := Cells.write g.cells i v } = g.data.set i v := by
  apply List.ext_getElem?
  intro j
  rw [Segment.data_getElem?, List.getElem?_set, Segment.data_getElem?, Segment.data_length]
  simp only [Cells.read_write]
  by_cases hij : i = j
  · subst hij; simp
  · simp [hij, Ne.symm hij]

theorem memWrite_data {m m' : Memory} {s i : Nat} {v : Word} (h : memWrite m s i v = .ok m') (p : Nat) :
    (m'.entry p).data = if p = s then (m.entry s).data.set i v else (m.entry p).data := by
  obtain ⟨hs, -, rfl⟩ := memWrite_ok h
  rw [Memory.entry_set]
  by_cases hp : p = s
  · rw [if_pos ⟨hp, hs⟩, if_pos hp, Segment.data_write]
  · rw [if_neg (fun hand => hp hand.1), if_neg hp]

/-- R32: the entry at the address that an allocation answers is the new segment. -/
theorem allocate_entry {b : Bool} {m : Memory} {n : Nat} {r : Memory × Nat} (hwf : m.wf)
    (h : allocate b m n = .ok r) : r.1.entry r.2 = Segment.zeroed n := by
  obtain ⟨-, ⟨rest, hpool, hr⟩ | ⟨-, haddr, -, hr⟩⟩ := allocate_ok h
  · have hlt : r.2 < m.table.length := ((Memory.mem_pool_iff hwf r.2).1 (by simp [hpool])).1
    rw [hr, Memory.entry_set, if_pos ⟨rfl, hlt⟩]
  · rw [hr, haddr, Memory.entry_append (pool' := []), if_pos rfl]

/-- An index past the segment is not listed in canonical form. -/
theorem Cells.read_of_len_le {len i : Nat} {c : List (Nat × Word)} (hc : Cells.Canonical len c) (hi : len ≤ i) :
    Cells.read c i = Cells.unlisted := by
  obtain ⟨-, hbound⟩ := hc
  induction c with
  | nil => rfl
  | cons p t ih =>
    obtain ⟨k, w⟩ := p
    have hk : k < len := (hbound (k, w) List.mem_cons_self).1
    have hne : i ≠ k := by omega
    simp only [Cells.read, if_neg hne]
    exact ih fun q hq => hbound q (List.mem_cons_of_mem _ hq)

theorem Segment.read_cells {g : Segment} (hg : g.Wf) (i : Nat) :
    Cells.read g.cells i = g.data[i]?.getD Cells.unlisted := by
  rw [Segment.data_getElem?]
  split
  · rfl
  · rename_i hi
    exact Cells.read_of_len_le hg.1 (Nat.le_of_not_lt hi)

/-- Log entry 2: the canonical form is determined by the words. -/
theorem Segment.ext_data {g h : Segment} (hg : g.Wf) (hh : h.Wf) (hlive : g.live = h.live) (hdata : g.data = h.data) :
    g = h := by
  have hlen : g.len = h.len := by rw [← g.data_length, hdata, h.data_length]
  have hcells : g.cells = h.cells := Cells.ext_of_canonical hg.1 hh.1 fun i => by
    rw [Segment.read_cells hg, Segment.read_cells hh, hdata]
  cases g
  cases h
  simp only [Segment.mk.injEq]
  exact ⟨hlive, hlen, hcells⟩

/-! ### A register that an instruction does not read -/

/-- `y` is `x` with `v` in register `r`, or `x` itself where `r` is the register written: how the answers of one
instruction from `s` and from `s.setReg r v` are related when it does not read `r`. -/
def UnreadReg (written : Option RegIx) (r : RegIx) (v : Word) (x y : Result) : Prop :=
  ∀ t, x = .next t → y = .next (t.setReg r v) ∨ (written = some r ∧ y = .next t)

namespace UnreadReg

variable {written : Option RegIx} {r : RegIx} {v : Word}

theorem next (u : State) : UnreadReg written r v (.next u) (.next (u.setReg r v)) := by
  intro t ht
  cases ht
  exact .inl rfl

theorem raise (cause : FatalCause) (s : State) :
    UnreadReg written r v (raise cause s) (raise cause (s.setReg r v)) :=
  next (s.setStatus (.fatal cause))

/-- The write of `x` covers the value that was put in the same register, and commutes with any other. -/
theorem setReg (s : State) (a : RegIx) (x : Word) :
    UnreadReg (some a) r v (.next (s.setReg a x)) (.next ((s.setReg r v).setReg a x)) := by
  intro t ht
  cases ht
  by_cases har : a = r
  · subst har
    exact .inr ⟨rfl, by rw [State.setReg_setReg]⟩
  · exact .inl (by rw [State.setReg_comm s v x har])

theorem attempt {α : Type} (e : Except FatalCause α) (s : State) {k k' : α → Result}
    (hk : ∀ z, UnreadReg written r v (k z) (k' z)) :
    UnreadReg written r v (attempt e s k) (attempt e (s.setReg r v) k') := by
  cases e with
  | ok z => exact hk z
  | error cause => exact raise cause s

end UnreadReg

/-- R13, R116: with the registers read, and for MAP the answer of `alloc_ok`, unchanged, only the value in `r`
differs. -/
theorem exec_unreadReg (i : Instr) (s : State) (r : RegIx) (v : Word) (hr : r ∉ mayRead i)
    (halloc : i.tag = .map → ∀ n, (s.setReg r v).allocOk n = s.allocOk n) :
    UnreadReg (mayWrite i) r v (exec i s) (exec i (s.setReg r v)) := by
  have hreg : ∀ q ∈ mayRead i, (s.setReg r v).getReg q = s.getReg q := fun q hq =>
    State.setReg_getReg_ne s v (ne_of_mem_of_not_mem hq hr)
  cases i
  all_goals simp only [mayRead, List.forall_mem_cons] at hreg
  case cmov a b c =>
    simp only [exec, execCmov, hreg]
    split
    · exact .setReg s a _
    · exact .next s
  case sload a b c =>
    simp only [exec, execSload, State.regNat, hreg]
    exact .attempt _ s fun w => .setReg s a w
  case sstore a b c =>
    simp only [exec, execSstore, State.regNat, hreg]
    exact .attempt _ s fun m => .next (s.setMem m)
  case add a b c =>
    simp only [exec, execAdd, hreg]
    exact .setReg s a _
  case mul a b c =>
    simp only [exec, execMul, hreg]
    exact .setReg s a _
  case div a b c =>
    simp only [exec, execDiv, hreg]
    split
    · exact .raise _ s
    · exact .setReg s a _
  case nand a b c =>
    simp only [exec, execNand, hreg]
    exact .setReg s a _
  case halt a b c => exact .next (s.setStatus .halted)
  case map a b c =>
    simp only [exec, execMap, State.regNat, hreg, halloc rfl]
    exact .attempt _ s fun z => .setReg (s.setMem z.1) b _
  case unmap a b c =>
    simp only [exec, execUnmap, State.regNat, hreg]
    exact .attempt _ s fun m => .next (s.setMem m)
  case out a b c =>
    simp only [exec, execOut, hreg]
    split
    · exact .next (s.outByte _)
    · exact .raise _ s
  case inp a b c =>
    simp only [exec, execInp, State.inByte, State.setReg_inp]
    cases s.inp with
    | nil => exact .setReg s c _
    | cons x rest => exact .setReg (s.setInp rest) c _
  case loadp a b c =>
    simp only [exec, execLoadp, State.regNat, hreg]
    split
    · exact .attempt _ s fun m => .next ((s.setMem m).setPc _)
    · exact .next (s.setPc _)
  case loadi a imm => exact .setReg s a _
  case unrecognized a b c => exact .raise _ s

end Sys2Proof.Machine
end

section
/-! The statements of the family 10_state. -/

namespace Sys2Proof.Machine

/-- Settles O2: the reset state is the start state of the empty program. -/
theorem invariantHoldsAtReset : Obligations.InvariantHoldsAtReset :=
  invariantHoldsAtEveryStart [] [] .always (by norm_num)

/-- Settles O4: a step leaves the state, raises, or runs an instruction whose fetch shows segment 0 live (R38). -/
theorem everyStepKeepsTheInvariant : Obligations.EveryStepKeepsTheInvariant :=
  fun _ _ hinv h => step_inv hinv h

/-- Settles O7, by induction on the number of steps. -/
theorem endedRunNeverChanges : Obligations.EndedRunNeverChanges := by
  intro s n hended
  induction n with
  | zero => rfl
  | succ n ih => rw [run_succ n (step_of_ended hended), ih]

/-- Settles O10: the step is the instruction after the increment, and a LOADP that goes on has not raised. -/
theorem pcAdvancesByOneExceptForLoadp : Obligations.PcAdvancesByOneExceptForLoadp := by
  intro s t w hrun hw h
  rw [step_of_fetch hrun hw] at h
  refine ⟨fun htag => exec_pc_of_ne_loadp htag h, fun a b c hdec hgoes => ?_⟩
  rw [hdec] at h
  rcases exec_loadp_cases h with ⟨cause, rfl⟩ | htarget
  · cases hgoes
  · exact htarget

/-- Settles O11: what holds of the streams over a step is transitive, so it holds over a run. -/
theorem streamsOnlyMoveForward : Obligations.StreamsOnlyMoveForward := by
  refine ⟨fun n s t h => ?run, fun i s t h => ⟨exec_out h, exec_inp h⟩⟩
  refine run_keeps (P := fun u => s.out <+: u.out ∧ u.inp <:+ s.inp) ?_ ⟨List.prefix_rfl, List.suffix_rfl⟩ h
  rintro u u' ⟨hout, hinp⟩ hstep
  obtain ⟨hout', hinp'⟩ := step_streams hstep
  exact ⟨hout.trans hout', hinp'.trans hinp⟩

/-- Settles O13. -/
theorem instructionsWriteOnlyTheirRegister : Obligations.InstructionsWriteOnlyTheirRegister :=
  fun _ _ _ _ h hr => exec_getReg_of_not_mayWrite hr h

/-- Settles O14, from the case split over the instructions in `exec_unreadReg`. -/
theorem instructionsDependOnlyOnRegistersRead : Obligations.InstructionsDependOnlyOnRegistersRead :=
  fun i s t r v hr halloc h => exec_unreadReg i s r v hr halloc t h

/-- Settles O36: each operation of the segment manager in the terms of `Segment.data`. -/
theorem sparseSegmentsRefineTheSpecsLists : Obligations.SparseSegmentsRefineTheSpecsLists := by
  refine ⟨fun m s i hs => ?read, fun m m' s i v h => ⟨?written, fun p hp => ?others⟩, Segment.data_ofWords,
    fun b m m' n s hwf h => ?new⟩
  case read => exact (memRead_data m s i).trans (if_pos hs)
  case written => rw [memWrite_data h, if_pos rfl]
  case others => rw [memWrite_data h, if_neg hp]
  case new => rw [allocate_entry hwf h, Segment.data_zeroed]

/-- Settles O37: the words determine the length, and with the canonical form the listed cells. -/
theorem equalSegmentsAreEqualData : Obligations.EqualSegmentsAreEqualData :=
  fun _ _ hg hh hlive hdata => Segment.ext_data hg hh hlive hdata

end Sys2Proof.Machine
end

section
/-! SUPPORT. The facts that the statements about memory (spec/20_memory.md) need: the entries after each operation of
the segment manager, and a read after a write. -/

namespace Sys2Proof.Machine

/-! ### The entries after each operation -/

/-- R35: a write changes the listed words of one entry. -/
theorem memWrite_entry {m m' : Memory} {s i : Nat} {v : Word} (h : memWrite m s i v = .ok m') (p : Nat) :
    m'.entry p = if p = s then { m.entry s with cells := Cells.write (m.entry s).cells i v } else m.entry p := by
  obtain ⟨hs, -, rfl⟩ := memWrite_ok h
  simp only [Memory.entry_set, hs, and_true]

theorem memWrite_entry_ne {m m' : Memory} {s i p : Nat} {v : Word} (h : memWrite m s i v = .ok m') (hp : p ≠ s) :
    m'.entry p = m.entry p :=
  (memWrite_entry h p).trans (if_neg hp)

theorem memWrite_table_length {m m' : Memory} {s i : Nat} {v : Word} (h : memWrite m s i v = .ok m') :
    m'.table.length = m.table.length := by
  obtain ⟨-, -, rfl⟩ := memWrite_ok h
  exact List.length_set

/-- R33: freeing empties one entry. -/
theorem free_entry {m m' : Memory} {s : Nat} (h : free m s = .ok m') (p : Nat) :
    m'.entry p = if p = s then Segment.freed else m.entry p := by
  obtain ⟨hs, -, rfl⟩ := free_ok h
  rw [Memory.entry_set]
  simp only [hs, and_true]
  rfl

theorem free_entry_ne {m m' : Memory} {s p : Nat} (h : free m s = .ok m') (hp : p ≠ s) : m'.entry p = m.entry p :=
  (free_entry h p).trans (if_neg hp)

/-- R36: entry 0 becomes the live copy of the source. -/
theorem replaceZero_entry {m m' : Memory} {s : Nat} (h : replaceZero m s = .ok m') (p : Nat) :
    m'.entry p = if p = 0 then { m.entry s with live := true } else m.entry p := by
  obtain ⟨hs, -, rfl⟩ := replaceZero_ok h
  simp only [Memory.entry_set, Nat.zero_lt_of_lt hs, and_true]

theorem replaceZero_entry_ne {m m' : Memory} {s p : Nat} (h : replaceZero m s = .ok m') (hp : p ≠ 0) :
    m'.entry p = m.entry p :=
  (replaceZero_entry h p).trans (if_neg hp)

/-- R32: an allocation changes no entry but the one at the address it answers. -/
theorem allocate_entry_ne {b : Bool} {m : Memory} {n p : Nat} {r : Memory × Nat} (h : allocate b m n = .ok r)
    (hp : p ≠ r.2) : r.1.entry p = m.entry p := by
  obtain ⟨-, ⟨rest, -, hr⟩ | ⟨hpool, haddr, -, hr⟩⟩ := allocate_ok h
  · rw [hr, Memory.entry_set, if_neg fun hand => hp hand.1]
    rfl
  · rw [hr, Memory.entry_append (pool' := []), if_neg (haddr ▸ hp)]
    rfl

/-- R142: the address that an allocation answers was not live: it was in the pool, or at the end of the table. -/
theorem allocate_address_not_live {b : Bool} {m : Memory} {n : Nat} {r : Memory × Nat} (hwf : m.wf)
    (h : allocate b m n = .ok r) : (m.entry r.2).live = false := by
  obtain ⟨-, ⟨rest, hpool, -⟩ | ⟨-, haddr, -, -⟩⟩ := allocate_ok h
  · exact ((Memory.mem_pool_iff hwf r.2).1 (by simp [hpool])).2
  · rw [haddr, Memory.entry_of_le le_rfl]
    rfl

/-! ### The length of a segment that stays live -/

theorem memWrite_wordCount {m m' : Memory} {s i : Nat} {v : Word} (h : memWrite m s i v = .ok m') (p : Nat) :
    m'.wordCount p = m.wordCount p := by
  unfold Memory.wordCount
  rw [memWrite_entry h]
  split
  · subst p; rfl
  · rfl

/-- R31: an allocation answers an address that was not live, and freeing leaves one that is not live, so of the
segments that stay live only the target of LOADP's copy can have another length. -/
theorem exec_wordCount {i : Instr} {s t : State} {p : Nat} (hwf : s.mem.wf) (h : exec i s = .next t)
    (hi : i.tag ≠ .loadp ∨ p ≠ 0) (hs : (s.mem.entry p).live = true) (ht : (t.mem.entry p).live = true) :
    t.mem.wordCount p = s.mem.wordCount p := by
  rcases exec_cases i s t h with ⟨c, rfl⟩ | ⟨-, -, -, -, -, -, -, hmem⟩
  · rfl
  · rcases hmem with hsame | ⟨a, b, c, -, hwrite⟩ | ⟨a, b, c, r, -, halloc, hres⟩ | ⟨a, b, c, -, hfree⟩ |
      ⟨a, b, c, rfl, hcopy⟩
    · rw [hsame]
    · exact memWrite_wordCount hwrite p
    · have hp : p ≠ r.2 := by
        rintro rfl
        simp [allocate_address_not_live hwf halloc] at hs
      rw [hres]
      exact congrArg Segment.len (allocate_entry_ne halloc hp)
    · have hp : p ≠ s.regNat c := by
        rintro rfl
        simp [free_entry hfree, Segment.freed] at ht
      exact congrArg Segment.len (free_entry_ne hfree hp)
    · have hp : p ≠ 0 := hi.resolve_left fun hne => hne rfl
      exact congrArg Segment.len (replaceZero_entry_ne hcopy hp)

/-! ### A read after a write -/

/-- R34, R35: the checks of a read answer as before the write, and one word reads as the value written. -/
theorem memRead_memWrite {m m' : Memory} {s i : Nat} {v : Word} (h : memWrite m s i v = .ok m') (p j : Nat) :
    memRead m' p j = if p = s ∧ j = i then .ok v else memRead m p j := by
  obtain ⟨hs, hi, -⟩ := memWrite_ok h
  rw [memRead_eq, memRead_eq, memWrite_table_length h, memWrite_entry h]
  by_cases hp : p = s
  · subst hp
    by_cases hj : j = i
    · subst hj; simp [hs, hi, Cells.read_write]
    · simp [hj, Cells.read_write]
  · simp [hp]

/-- R31: an address past the table has no words. -/
theorem Memory.lt_length_of_lt_wordCount {m : Memory} {p i : Nat} (hi : i < m.wordCount p) : p < m.table.length := by
  by_contra hp
  rw [Memory.wordCount, Memory.entry_of_le (Nat.le_of_not_lt hp)] at hi
  exact Nat.not_lt_zero i hi

/-- R35: a write inside its segment succeeds. -/
theorem memWrite_of_lt_wordCount {m : Memory} {s i : Nat} (v : Word) (hi : i < m.wordCount s) :
    ∃ m', memWrite m s i v = .ok m' := by
  have hlen : i < (m.entry s).len := hi
  exact ⟨_, by rw [memWrite_eq, if_pos (Memory.lt_length_of_lt_wordCount hi), if_pos hlen]⟩

/-- R141: an SSTORE inside its segment goes on with the memory that the write leaves. -/
theorem exec_sstore_of_lt {a b c : RegIx} {s t : State} (hi : s.regNat b < s.mem.wordCount (s.regNat a))
    (h : exec (.sstore a b c) s = .next t) :
    ∃ m, memWrite s.mem (s.regNat a) (s.regNat b) (s.getReg c) = .ok m ∧ t = s.setMem m := by
  obtain ⟨m, hm⟩ := memWrite_of_lt_wordCount (s.getReg c) hi
  have hnext : Host.Outcome.next (s.setMem m) = .next t := (attempt_ok hm).symm.trans h
  exact ⟨m, hm, (Host.Outcome.next.inj hnext).symm⟩

end Sys2Proof.Machine
end

section
/-! The statements of the family 20_memory. -/

namespace Sys2Proof.Machine

/-- Settles O30. -/
theorem onlyLoadpChangesALiveLength : Obligations.OnlyLoadpChangesALiveLength :=
  fun _ _ _ _ hwf h hi hs ht => exec_wordCount hwf h hi hs ht

/-- Settles O33: the copy is an entry of its own, so what changes entry `s` leaves entry 0, and the converse. -/
theorem loadedProgramIsAValueCopy : Obligations.LoadedProgramIsAValueCopy := by
  intro m m1 m2 s i v hs h
  refine ⟨?copy, replaceZero_entry_ne h hs, fun hw => memWrite_entry_ne hw hs.symm,
    fun hw => memWrite_entry_ne hw hs, fun hf => free_entry_ne hf hs.symm⟩
  case copy => rw [replaceZero_entry h, if_pos rfl]; rfl

/-- Settles O34: the store succeeds, and the fetch is the read of the word written (O35). -/
theorem storeIntoTheProgramIsFetched : Obligations.StoreIntoTheProgramIsFetched := by
  intro a b c s t hrun ha hb h
  have haddr : s.regNat a = 0 := by rw [State.regNat, ha]; rfl
  obtain ⟨m, hwrite, rfl⟩ := exec_sstore_of_lt (haddr ▸ hb) h
  have hread : memRead m 0 (s.regNat b) = .ok (s.getReg c) := by
    rw [memRead_memWrite hwrite, if_pos ⟨haddr.symm, rfl⟩]
  refine ⟨step_of_fetch hrun hread, fun hpc => step_of_fetch hrun ?_⟩
  rw [State.setMem_mem, State.setMem_pc, hpc]
  exact hread

/-- Settles O35. -/
theorem readAfterWrite : Obligations.ReadAfterWrite :=
  fun _ _ _ _ _ h p j => memRead_memWrite h p j

end Sys2Proof.Machine
end

section
/-! SUPPORT. The facts that the statements about the encoding (spec/30_encoding.md) need: the number of an encoded word,
which operand numbers have an encoding, when two decodings are the same, and a pack of one field below those before. -/

namespace Sys2Proof

open Sys2Proof.Machine

/-! ### Opcode values and tags -/

/-- R64: the tag of the opcode value that the encoder writes. -/
theorem tagOf_of_eq_opcode {op : Fin 16} {t : Tag} (h : op.val = t.opcode) : tagOf op = t := by
  unfold tagOf
  rw [h]
  cases t <;> rfl

theorem Tag.opcode_lt (t : Tag) : t.opcode < 16 := by cases t <;> decide

/-- R63: opcode 13 alone has format LI. -/
theorem tagOf_eq_loadi_iff : ∀ op : Fin 16, tagOf op = .loadi ↔ op.val = 13 := by decide

/-- R101: only 14 and 15 share a tag. -/
theorem tagOf_eq_tagOf_iff : ∀ m n : Fin 16, tagOf m = tagOf n ↔ m.val = n.val ∨ (14 ≤ m.val ∧ 14 ≤ n.val) := by decide

/-! ### The encoded words -/

theorem encodeR3_toNat {op a b c : Nat} (ho : op < 16) (ha : a < 8) (hb : b < 8) (hc : c < 8) :
    (encodeR3 op a b c).toNat = op * 2 ^ 28 + a * 2 ^ 6 + b * 2 ^ 3 + c := by
  rw [encodeR3, BitVec.toNat_ofNat]
  exact Nat.mod_eq_of_lt (by omega)

theorem encodeLI_toNat {a imm : Nat} (ha : a < 8) (hi : imm < 2 ^ 25) :
    (encodeLI a imm).toNat = 13 * 2 ^ 28 + a * 2 ^ 25 + imm := by
  rw [encodeLI, BitVec.toNat_ofNat]
  exact Nat.mod_eq_of_lt (by omega)

/-- R72: which operand numbers of format R3 have an encoding. -/
theorem AsmForm.r3_wf_iff {op a b c : Nat} :
    (AsmForm.r3 op a b c).wf = true ↔ (op < 16 ∧ op ≠ 13) ∧ a < 8 ∧ b < 8 ∧ c < 8 := by
  simp only [AsmForm.wf, AsmForm.opOk, AsmForm.regOk, Bool.and_eq_true, decide_eq_true_eq, Nat.lt_succ_iff, and_assoc]

/-- R72: which operand numbers of format LI have an encoding. -/
theorem AsmForm.li_wf_iff {a imm : Nat} : (AsmForm.li a imm).wf = true ↔ a < 8 ∧ imm < 2 ^ 25 := by
  simp only [AsmForm.wf, AsmForm.regOk, AsmForm.immOk, Bool.and_eq_true, decide_eq_true_eq]

theorem AsmForm.encode_r3 {op a b c : Nat} (h : (AsmForm.r3 op a b c).wf = true) :
    (AsmForm.r3 op a b c).encode = some (encodeR3 op a b c) := if_pos h

theorem AsmForm.encode_li {a imm : Nat} (h : (AsmForm.li a imm).wf = true) :
    (AsmForm.li a imm).encode = some (encodeLI a imm) := if_pos h

theorem AsmForm.encode_of_not_wf {f : AsmForm} (h : f.wf = false) : f.encode = none :=
  if_neg (Bool.eq_false_iff.1 h)

/-! ### The decoding by format -/

/-- R61: every instruction has format LI or format R3, and its format fixes its record and its word. -/
theorem Instr.format_cases (i : Instr) :
    (∃ a imm, i = .loadi a imm) ∨
    ∃ a b c, i.tag ≠ .loadi ∧ i.record = .r3 i.tag a b c ∧
      encode i = encodeR3 i.tag.opcode a.val b.val c.val := by
  cases i with
  | loadi a imm => exact .inl ⟨a, imm, rfl⟩
  | _ a b c => exact .inr ⟨a, b, c, nofun, rfl, rfl⟩

/-- R102: a word of format LI. -/
theorem decode_record_li {w : Word} (h : (opcodeField w).val = 13) :
    (decode w).record = .li (fieldALi w) (fieldImm w) := by
  rw [decode_record, if_pos ((tagOf_eq_loadi_iff _).2 h)]

/-- R103: a word of format R3. -/
theorem decode_record_r3 {w : Word} (h : (opcodeField w).val ≠ 13) :
    (decode w).record = .r3 (tagOf (opcodeField w)) (fieldA w) (fieldB w) (fieldC w) := by
  rw [decode_record, if_neg (mt (tagOf_eq_loadi_iff _).1 h)]

theorem decode_encodeR3 {i : Instr} {a b c : RegIx} (htag : i.tag ≠ .loadi) (hrec : i.record = .r3 i.tag a b c) :
    decode (encodeR3 i.tag.opcode a.val b.val c.val) = i := by
  obtain ⟨ho, ha, hb, hc⟩ := fields_encodeR3 i.tag.opcode_lt a.isLt b.isLt c.isLt
  have hop : tagOf ⟨i.tag.opcode, i.tag.opcode_lt⟩ = i.tag := tagOf_of_eq_opcode rfl
  exact decode_r3 (n := ⟨i.tag.opcode, i.tag.opcode_lt⟩) ho ha hb hc (by rw [hop, hrec]) (by rw [hop]; exact htag)

theorem decode_encodeLI (a : RegIx) (imm : Imm) : decode (encodeLI a.val imm.toNat) = .loadi a imm := by
  obtain ⟨ho, ha, hi⟩ := fields_encodeLI a.isLt imm.isLt
  exact decode_loadi ho ha hi

/-! ### When two decodings are the same -/

theorem decode_eq_iff_record (v w : Word) : decode v = decode w ↔ (decode v).record = (decode w).record :=
  ⟨congrArg Instr.record, Instr.record_injective⟩

/-- R62: the three fields of format R3 are bits 8:0. -/
theorem r3Fields_eq_iff (v w : Word) :
    (fieldA v = fieldA w ∧ fieldB v = fieldB w ∧ fieldC v = fieldC w) ↔ v.toNat % 2 ^ 9 = w.toNat % 2 ^ 9 := by
  simp only [Fin.ext_iff, fieldA_val, fieldB_val, fieldC_val]
  omega

/-- R63: the opcode and the two fields of format LI are the whole word. -/
theorem eq_of_liFields_eq {v w : Word} (ho : opcodeField v = opcodeField w) (ha : fieldALi v = fieldALi w)
    (hi : fieldImm v = fieldImm w) : v = w := by
  have hop := congrArg Fin.val ho
  have hreg := congrArg Fin.val ha
  have himm := congrArg BitVec.toNat hi
  rw [opcodeField_val, opcodeField_val] at hop
  rw [fieldALi_val, fieldALi_val] at hreg
  rw [fieldImm_toNat, fieldImm_toNat] at himm
  exact BitVec.eq_of_toNat_eq (by omega)

/-- R68, opcode 13: no bit is ignored. -/
theorem decode_eq_iff_li {v w : Word} (hv : (opcodeField v).val = 13) : decode v = decode w ↔ v = w := by
  refine ⟨fun h => ?_, congrArg decode⟩
  have htag : tagOf (opcodeField w) = .loadi := by
    rw [← decode_tag, ← h, decode_tag]
    exact (tagOf_eq_loadi_iff _).2 hv
  have hw : (opcodeField w).val = 13 := (tagOf_eq_loadi_iff _).1 htag
  have hrec := (decode_eq_iff_record v w).1 h
  rw [decode_record_li hv, decode_record_li hw] at hrec
  injection hrec with _ ha _ _ hi
  exact eq_of_liFields_eq (Fin.ext (hv.trans hw.symm)) ha (Option.some.inj hi)

/-- R68, the other opcodes: bits 27:9 are ignored. -/
theorem decode_eq_iff_r3 {v w : Word} (hv : (opcodeField v).val ≠ 13) (hw : (opcodeField w).val ≠ 13) :
    decode v = decode w ↔ tagOf (opcodeField v) = tagOf (opcodeField w) ∧ v.toNat % 2 ^ 9 = w.toNat % 2 ^ 9 := by
  rw [decode_eq_iff_record, decode_record_r3 hv, decode_record_r3 hw, ← r3Fields_eq_iff]
  simp only [DecodedRecord.r3, DecodedRecord.mk.injEq, Option.some.injEq, and_true]

end Sys2Proof

namespace Sys2Proof.Machine

/-! ### Packing a field below the fields packed before -/

@[simp] theorem Codec.Result.value_andThen {α β : Type} (v : α) (k : α → Codec.Result β) :
    (Codec.Result.value v).andThen k = k v := rfl

/-- R86: where the field and all bits below it are 0, the OR of a pack is a sum. -/
theorem Codec.newu_ofNat {cw width lsb value n : Nat} (h : lsb + width ≤ cw) (hv : value < 2 ^ width)
    (hn : 2 ^ (lsb + width) ∣ n) :
    Codec.newu (BitVec.ofNat cw n) width lsb value = .value (BitVec.ofNat cw (n + value * 2 ^ lsb)) := by
  obtain ⟨q, rfl⟩ := hn
  have hlt : value * 2 ^ lsb < 2 ^ (lsb + width) := by
    rw [pow_add, Nat.mul_comm]
    exact Nat.mul_lt_mul_of_pos_left hv (Nat.two_pow_pos lsb)
  rw [Codec.newu_of_fits _ h hv, Codec.orInto, Nat.two_pow_add_eq_or_of_lt hlt, BitVec.ofNat_or]

/-- R72: `packLI` after the opcode and the register have been packed. -/
theorem packLI_eq_newu_imm {a : Nat} (ha : a < 8) (imm : Nat) :
    packLI a imm = Codec.newu (BitVec.ofNat 32 (13 * 2 ^ 28 + a * 2 ^ 25)) 25 0 imm := by
  have hop : Codec.newu (0 : Word) 4 28 13 = .value (BitVec.ofNat 32 (13 * 2 ^ 28)) := rfl
  rw [packLI, hop, Codec.Result.value_andThen, Codec.newu_ofNat (by decide) ha (by decide),
    Codec.Result.value_andThen]

theorem packLI_eq_encodeLI {a imm : Nat} (ha : a < 8) (hi : imm < 2 ^ 25) :
    packLI a imm = .value (encodeLI a imm) := by
  rw [packLI_eq_newu_imm ha, Codec.newu_ofNat (by decide) hi (by omega), pow_zero, Nat.mul_one, encodeLI]

/-- R72: the fields are packed from the highest down, so each finds its own bits and those below it 0. -/
theorem packR3_eq_encodeR3 {op a b c : Nat} (ho : op < 16) (ha : a < 8) (hb : b < 8) (hc : c < 8) :
    packR3 op a b c = .value (encodeR3 op a b c) := by
  have hop : Codec.newu (0 : Word) 4 28 op = .value (BitVec.ofNat 32 (0 + op * 2 ^ 28)) :=
    Codec.newu_ofNat (by decide) ho (dvd_zero _)
  rw [packR3, hop, Codec.Result.value_andThen, Codec.newu_ofNat (by decide) ha (by omega),
    Codec.Result.value_andThen, Codec.newu_ofNat (by decide) hb (by omega),
    Codec.Result.value_andThen, Codec.newu_ofNat (by decide) hc (by omega), pow_zero, Nat.mul_one, Nat.zero_add,
    encodeR3]

end Sys2Proof.Machine
end

section
/-! The statements of the family 30_encoding. -/

namespace Sys2Proof.Machine

/-- Settles O38, by the format of the instruction. -/
theorem decodeOfEncodeIsTheInstruction : Obligations.DecodeOfEncodeIsTheInstruction := by
  intro i _
  obtain ⟨a, imm, rfl⟩ | ⟨a, b, c, htag, hrec, henc⟩ := i.format_cases
  · exact decode_encodeLI a imm
  · rw [henc]
    exact decode_encodeR3 htag hrec

/-- Settles O39: the fields of the formula's word, and the record that its opcode gives. -/
theorem assembledWordsHoldTheirOperands : Obligations.AssembledWordsHoldTheirOperands := by
  refine ⟨fun op a b c hwf => ?r3, fun a imm hwf => ?li, fun f hwf => AsmForm.encode_of_not_wf hwf⟩
  case r3 =>
    obtain ⟨⟨ho, hne⟩, ha, hb, hc⟩ := AsmForm.r3_wf_iff.1 hwf
    obtain ⟨hop, hfa, hfb, hfc⟩ := fields_encodeR3 ho ha hb hc
    refine ⟨_, AsmForm.encode_r3 hwf, encodeR3_toNat ho ha hb hc, ?_⟩
    rw [decode_record_r3 (by rwa [hop])]
    exact ⟨hfa, congrArg some hfb, congrArg some hfc, rfl⟩
  case li =>
    obtain ⟨ha, hi⟩ := AsmForm.li_wf_iff.1 hwf
    obtain ⟨hop, hfa, hfi⟩ := fields_encodeLI ha hi
    refine ⟨_, AsmForm.encode_li hwf, encodeLI_toNat ha hi, ?_⟩
    rw [decode_record_li hop]
    exact ⟨hfa, rfl, rfl, congrArg some hfi⟩

/-- Settles O40: opcode 13 keeps the whole word; any other keeps bits 8:0 and the tag. -/
theorem wordsDecodeEqualExactlyWhenFieldsAgree : Obligations.WordsDecodeEqualExactlyWhenFieldsAgree := by
  intro v w
  simp only [← opcodeField_val]
  by_cases hv : (opcodeField v).val = 13
  · simp only [decode_eq_iff_li hv, hv, ne_eq, not_true_eq_false, true_and, false_and, or_false]
  · by_cases hw : (opcodeField w).val = 13
    · rw [eq_comm, decode_eq_iff_li hw]
      have hne : w ≠ v := by rintro rfl; exact hv hw
      simp only [hne, hv, hw, ne_eq, not_true_eq_false, false_and, and_false, or_false]
    · simp only [decode_eq_iff_r3 hv hw, tagOf_eq_tagOf_iff, hv, hw, ne_eq, not_false_eq_true, true_and, false_and,
        false_or, and_comm]

/-- Settles O44. -/
theorem packedFieldsMakeTheInstructionWord : Obligations.PackedFieldsMakeTheInstructionWord := by
  refine ⟨fun op a b c hwf => ?r3, fun a imm hwf => ?li, fun a imm ha hi => ?wide⟩
  case r3 =>
    obtain ⟨⟨ho, -⟩, ha, hb, hc⟩ := AsmForm.r3_wf_iff.1 hwf
    exact packR3_eq_encodeR3 ho ha hb hc
  case li =>
    obtain ⟨ha, hi⟩ := AsmForm.li_wf_iff.1 hwf
    exact packLI_eq_encodeLI ha hi
  case wide =>
    rw [packLI_eq_newu_imm ha]
    exact Codec.newu_of_not_fits _ (by decide) hi

/-- Settles O43: eight fixed words, each decoded by evaluation. -/
theorem writtenWordsDecode : Obligations.WrittenWordsDecode := by
  unfold Obligations.WrittenWordsDecode
  decide

end Sys2Proof.Machine
end

section
/-! SUPPORT for the family 40_codec: every field is a bit vector of its own width, `getu` reads it by `toNat`, `gets`
by `toInt`, and the packs OR it back. At width 0 that bit vector is the empty one, which both read as 0. -/

namespace Sys2Proof.Machine.Codec

variable {cw width lsb : Nat}

/-! ### The fit tests -/

theorem fitss_iff (n : Int) (h0 : width ≠ 0) :
    fitss n width = true ↔ -2 ^ (width - 1) ≤ n ∧ n ≤ 2 ^ (width - 1) - 1 := by
  simp [fitss, h0]

theorem fitss_zero_iff (n : Int) : fitss n 0 = true ↔ n = 0 := by simp [fitss]

theorem fitsu_zero_iff (n : Nat) : fitsu n 0 = true ↔ n = 0 := by
  rw [fitsu_iff, pow_zero, Nat.lt_one_iff]

/-- R82: what `fitss` accepts is what the two's-complement pattern of that width keeps. -/
theorem toInt_ofInt_of_fitss {n : Int} (h : fitss n width = true) : (BitVec.ofInt width n).toInt = n := by
  by_cases h0 : width = 0
  · subst h0
    rw [(fitss_zero_iff n).1 h, BitVec.toInt_zero_length]
  · obtain ⟨hlo, hhi⟩ := (fitss_iff n h0).1 h
    exact BitVec.toInt_ofInt_eq_self (Nat.pos_of_ne_zero h0) hlo (Int.lt_of_le_sub_one hhi)

theorem fitss_toInt {w : Nat} (v : BitVec w) (hw : w ≤ width) : fitss v.toInt width = true := by
  by_cases h0 : width = 0
  · subst h0
    obtain rfl := Nat.le_zero.1 hw
    rw [BitVec.toInt_zero_length, fitss_zero_iff]
  · have hlo := v.le_toInt
    have hhi := v.toInt_lt
    have hpow : (2 : Int) ^ (w - 1) ≤ 2 ^ (width - 1) := pow_le_pow_right₀ (by decide) (by omega)
    exact (fitss_iff _ h0).2 ⟨by omega, by omega⟩

theorem fitsu_toNat {w : Nat} (v : BitVec w) (hw : w ≤ width) : fitsu v.toNat width = true :=
  (fitsu_iff _ _).2 (BitVec.toNat_lt_twoPow_of_le hw)

/-! ### The two readings of a field -/

theorem sext_toNat (x : BitVec width) (h0 : width ≠ 0) : sext width x.toNat = x.toInt := by
  obtain ⟨m, rfl⟩ := Nat.exists_eq_succ_of_ne_zero h0
  have hpow : (2 : Nat) ^ (m + 1) = 2 * 2 ^ m := by rw [pow_succ, Nat.mul_comm]
  have hiff : x.toNat < 2 ^ m ↔ 2 * x.toNat < 2 ^ (m + 1) := by omega
  simp [sext, BitVec.toInt_eq_toNat_cond, hiff]

theorem tc_eq_toNat_ofInt (n : Int) : tc width n = (BitVec.ofInt width n).toNat := by
  simp [tc]

theorem toInt_emod_two_pow (x : BitVec width) : x.toInt % 2 ^ width = x.toNat := by
  have hcast : (2 : Int) ^ width = (2 ^ width : Nat) := by simp
  rw [BitVec.toInt_eq_toNat_bmod, hcast, Int.bmod_emod, ← Int.natCast_mod, Nat.mod_eq_of_lt x.isLt]

/-- R85, R90: at every width, 0 included, `gets` is the signed reading of the field. -/
theorem gets_eq_toInt (word : BitVec cw) (h : lsb + width ≤ cw) :
    gets word width lsb = .value (fieldBits word width lsb).toInt := by
  by_cases h0 : width = 0
  · subst h0
    have hl : lsb ≤ cw := h
    simp [gets, hl, BitVec.toInt_zero_length]
  · rw [gets_of_inRange word h h0, sext_toNat _ h0]

theorem gets_width_zero (word : BitVec cw) (h : lsb ≤ cw) : gets word 0 lsb = .value 0 := by
  rw [gets_eq_toInt (width := 0) word h, BitVec.toInt_zero_length]

theorem getu_width_zero (word : BitVec cw) (h : lsb ≤ cw) : getu word 0 lsb = .value 0 := by
  rw [getu_of_inRange (width := 0) word h, BitVec.toNat_of_zero_length rfl]

theorem fieldBits_eq_zero {word : BitVec cw} (hz : ∀ k, k < width → word.getLsbD (lsb + k) = false) :
    fieldBits word width lsb = 0#width := by
  apply BitVec.eq_of_getLsbD_eq
  intro k hk
  rw [fieldBits_getLsbD, hz k hk, Bool.and_false, BitVec.getLsbD_zero]

/-! ### When the answer is `badField` or `doesNotFit` -/

theorem newu_eq_ite (word : BitVec cw) (h : lsb + width ≤ cw) (value : Nat) :
    newu word width lsb value = if fitsu value width then .value (orInto word lsb value) else .doesNotFit := by
  simp [newu, h]

theorem news_eq_ite (word : BitVec cw) (h : lsb + width ≤ cw) (value : Int) :
    news word width lsb value =
      if fitss value width then .value (orInto word lsb (tc width value)) else .doesNotFit := by
  simp [news, h]

theorem news_of_not_fits {value : Int} (word : BitVec cw) (h : lsb + width ≤ cw)
    (hv : fitss value width = false) : news word width lsb value = .doesNotFit := by
  simp [news, h, hv]

theorem getu_eq_badField_iff (word : BitVec cw) : getu word width lsb = .badField ↔ cw < lsb + width := by
  by_cases h : lsb + width ≤ cw
  · simp [getu, h]
  · simp [getu, h, Nat.lt_of_not_le h]

theorem gets_eq_badField_iff (word : BitVec cw) : gets word width lsb = .badField ↔ cw < lsb + width := by
  by_cases h : lsb + width ≤ cw
  · simp [gets_eq_toInt word h, h]
  · simp [gets, h, Nat.lt_of_not_le h]

theorem newu_eq_badField_iff (word : BitVec cw) (value : Nat) :
    newu word width lsb value = .badField ↔ cw < lsb + width := by
  by_cases h : lsb + width ≤ cw
  · rw [newu_eq_ite word h]
    split <;> simp [h]
  · simp [newu, h, Nat.lt_of_not_le h]

theorem news_eq_badField_iff (word : BitVec cw) (value : Int) :
    news word width lsb value = .badField ↔ cw < lsb + width := by
  by_cases h : lsb + width ≤ cw
  · rw [news_eq_ite word h]
    split <;> simp [h]
  · simp [news, h, Nat.lt_of_not_le h]

/-! ### The word of a pack -/

/-- R86: a pattern of `width` bits reaches the bits of the field alone. -/
theorem orInto_getLsbD_of_lt (word : BitVec cw) {pattern k : Nat} (hp : pattern < 2 ^ width) (hk : k < cw) :
    (orInto word lsb pattern).getLsbD k =
      (word.getLsbD k || (decide (lsb ≤ k) && decide (k < lsb + width) && pattern.testBit (k - lsb))) := by
  rw [orInto_getLsbD]
  by_cases hf : k < lsb + width
  · simp [hk, hf]
  · have hbit : pattern.testBit (k - lsb) = false :=
      Nat.testBit_lt_two_pow (hp.trans_le (Nat.pow_le_pow_right (by decide) (by omega)))
    simp [hbit]

theorem orInto_getLsbD_outside (word : BitVec cw) {pattern k : Nat} (hp : pattern < 2 ^ width)
    (hk : k < lsb ∨ lsb + width ≤ k) : (orInto word lsb pattern).getLsbD k = word.getLsbD k := by
  by_cases hcw : k < cw
  · rw [orInto_getLsbD_of_lt word hp hcw]
    rcases hk with hlow | hhigh
    · simp [Nat.not_le_of_lt hlow]
    · simp [Nat.not_lt_of_le hhigh]
  · simp [orInto_getLsbD, hcw]

theorem fieldBits_orInto (word : BitVec cw) (h : lsb + width ≤ cw) (x : BitVec width) :
    fieldBits (orInto word lsb x.toNat) width lsb = fieldBits word width lsb ||| x := by
  apply BitVec.eq_of_getLsbD_eq
  intro k hk
  have hcw : lsb + k < cw := by omega
  rw [BitVec.getLsbD_or, fieldBits_getLsbD, fieldBits_getLsbD, orInto_getLsbD]
  simp [hk, hcw, BitVec.testBit_toNat]

/-- R91: a pattern packed into a field that is zero is the field of the new word. -/
theorem fieldBits_orInto_of_zero {word : BitVec cw} (h : lsb + width ≤ cw)
    (hz : ∀ k, k < width → word.getLsbD (lsb + k) = false) (x : BitVec width) :
    fieldBits (orInto word lsb x.toNat) width lsb = x := by
  rw [fieldBits_orInto word h, fieldBits_eq_zero hz, BitVec.zero_or]

@[simp] theorem orInto_zero (word : BitVec cw) : orInto word lsb 0 = word := by simp [orInto]

theorem newu_width_zero (word : BitVec cw) (h : lsb ≤ cw) : newu word 0 lsb 0 = .value word := by
  rw [newu_of_fits (width := 0) word h Nat.one_pos, orInto_zero]

theorem news_width_zero (word : BitVec cw) (h : lsb ≤ cw) : news word 0 lsb 0 = .value word := by
  have htc : tc 0 0 = 0 := rfl
  rw [news_of_fits (width := 0) word h ((fitss_zero_iff 0).2 rfl), htc, orInto_zero]

/-! ### The two shifts (R93) -/

theorem getuByShifts_eq_setWidth (word : BitVec cw) (h : lsb + width ≤ cw) :
    getuByShifts word width lsb = (fieldBits word width lsb).setWidth cw := by
  apply BitVec.eq_of_getLsbD_eq
  intro k hk
  rw [getuByShifts, BitVec.getLsbD_ushiftRight, BitVec.getLsbD_shiftLeft, BitVec.getLsbD_setWidth, fieldBits_getLsbD]
  by_cases hw : k < width
  · have hidx : cw - width + k - (cw - (lsb + width)) = lsb + k := by omega
    have hlt : cw - width + k < cw := by omega
    have hge : ¬ cw - width + k < cw - (lsb + width) := by omega
    simp [hidx, hlt, hge, hk, hw]
  · have hge : ¬ cw - width + k < cw := by omega
    simp [hge, hw]

/-- The left shift brings the field's top bit to the top of the carrier. -/
theorem msb_shiftLeft_eq_msb_fieldBits (word : BitVec cw) (h : lsb + width ≤ cw) (h1 : 1 ≤ width) :
    (word <<< (cw - (lsb + width))).msb = (fieldBits word width lsb).msb := by
  have hidx : cw - 1 - (cw - (lsb + width)) = lsb + (width - 1) := by omega
  have hlt : 0 < cw := by omega
  have hge : ¬ cw - 1 < cw - (lsb + width) := by omega
  have hw : width - 1 < width := by omega
  rw [BitVec.msb_eq_getLsbD_last, BitVec.msb_eq_getLsbD_last, BitVec.getLsbD_shiftLeft, fieldBits_getLsbD, hidx]
  simp [hlt, hge, hw]

theorem getsByShifts_eq_signExtend (word : BitVec cw) (h : lsb + width ≤ cw) (h1 : 1 ≤ width) :
    getsByShifts word width lsb = (fieldBits word width lsb).signExtend cw := by
  apply BitVec.eq_of_getLsbD_eq
  intro k hk
  rw [getsByShifts, BitVec.getLsbD_sshiftRight, BitVec.getLsbD_signExtend, msb_shiftLeft_eq_msb_fieldBits word h h1,
    BitVec.getLsbD_shiftLeft, fieldBits_getLsbD]
  by_cases hw : k < width
  · have hidx : cw - width + k - (cw - (lsb + width)) = lsb + k := by omega
    have hlt : cw - width + k < cw := by omega
    have hge : ¬ cw - width + k < cw - (lsb + width) := by omega
    simp [hidx, hlt, hge, hk, hw]
  · have hge : ¬ cw - width + k < cw := by omega
    simp [hge, hk, hw]

/-! ### A wider carrier (R95) -/

variable {cw' : Nat}

theorem fieldBits_setWidth (word : BitVec cw) (hcw : cw ≤ cw') :
    fieldBits (word.setWidth cw') width lsb = fieldBits word width lsb := by
  rw [fieldBits, BitVec.toNat_setWidth_of_le hcw, fieldBits]

theorem orInto_setWidth (word : BitVec cw) {pattern : Nat} (h : lsb + width ≤ cw) (hp : pattern < 2 ^ width) :
    orInto (word.setWidth cw') lsb pattern = (orInto word lsb pattern).setWidth cw' := by
  apply BitVec.eq_of_getLsbD_eq
  intro k hk
  rw [orInto_getLsbD_of_lt _ hp hk, BitVec.getLsbD_setWidth, BitVec.getLsbD_setWidth]
  by_cases hkw : k < cw
  · simp [orInto_getLsbD_of_lt word hp hkw, hk]
  · have hf : ¬ k < lsb + width := by omega
    have hlow : cw ≤ k := Nat.le_of_not_lt hkw
    simp [hf, hlow]

/-- R95: a pack at a wider carrier answers as at the narrower one, its word zero-extended. -/
theorem newu_setWidth (word : BitVec cw) (h : lsb + width ≤ cw) (hcw : cw ≤ cw') (value : Nat) :
    newu (word.setWidth cw') width lsb value =
      (newu word width lsb value).andThen fun w => .value (w.setWidth cw') := by
  rw [newu_eq_ite _ (h.trans hcw), newu_eq_ite word h]
  split
  case isTrue hv => rw [orInto_setWidth word h ((fitsu_iff _ _).1 hv), Codec.Result.value_andThen]
  case isFalse => rfl

theorem news_setWidth (word : BitVec cw) (h : lsb + width ≤ cw) (hcw : cw ≤ cw') (value : Int) :
    news (word.setWidth cw') width lsb value =
      (news word width lsb value).andThen fun w => .value (w.setWidth cw') := by
  rw [news_eq_ite _ (h.trans hcw), news_eq_ite word h]
  split
  · rw [orInto_setWidth word h (tc_lt width value), Codec.Result.value_andThen]
  · rfl

end Sys2Proof.Machine.Codec

namespace Sys2Proof.Machine

/-! ### The codec's ports -/

/-- R89, R94: `bad_field` is 1 exactly when `outside` holds, and then no other line has a value. -/
def CodecOut.Flags (o : CodecOut) (outside : Prop) : Prop :=
  (o.badField = true ↔ outside) ∧ (o.badField = true → o.result = none ∧ o.fits = none)

theorem CodecOut.flags_of_badField_eq_false {o : CodecOut} {outside : Prop} (ho : o.badField = false) (hin : ¬ outside) :
    o.Flags outside := by
  simp [CodecOut.Flags, ho, hin]

theorem CodecOut.flags_ofExtract {α : Type} {pattern : α → Word} {r : Codec.Result α} {outside : Prop}
    (h : r = .badField ↔ outside) : (CodecOut.ofExtract pattern r).Flags outside := by
  cases r <;> simp [CodecOut.Flags, CodecOut.ofExtract, ← h]

theorem CodecOut.flags_ofPack {r : Codec.Result Word} {outside : Prop} (h : r = .badField ↔ outside) :
    (CodecOut.ofPack r).Flags outside := by
  cases r <;> simp [CodecOut.Flags, CodecOut.ofPack, ← h]

theorem codecPorts_fitss {i : CodecIn} (h : i.op.toNat = 0) :
    codecPorts i = .ofFit (Codec.fitss i.value.toInt i.width.toNat) := by
  have hop : i.op = 0#3 := BitVec.eq_of_toNat_eq h
  simp [codecPorts, hop]

theorem codecPorts_fitsu {i : CodecIn} (h : i.op.toNat = 1) :
    codecPorts i = .ofFit (Codec.fitsu i.value.toNat i.width.toNat) := by
  have hop : i.op = 1#3 := BitVec.eq_of_toNat_eq h
  simp [codecPorts, hop]

/-- R94, by the operation: 0 and 1 are fit tests, 2 and 3 extracts, 4 and 5 packs, 6 and 7 unused. -/
theorem codecPorts_flags (i : CodecIn) :
    (codecPorts i).Flags (2 ≤ i.op.toNat ∧ i.op.toNat ≤ 5 ∧ 32 < i.lsb.toNat + i.width.toNat) := by
  rw [← BitVec.val_toFin i.op]
  unfold codecPorts
  split
  case h_1 hop | h_2 hop | h_7 hop | h_8 hop => exact CodecOut.flags_of_badField_eq_false rfl (by simp [hop])
  case h_3 hop => exact CodecOut.flags_ofExtract (by simp [Codec.gets_eq_badField_iff, hop])
  case h_4 hop => exact CodecOut.flags_ofExtract (by simp [Codec.getu_eq_badField_iff, hop])
  case h_5 hop => exact CodecOut.flags_ofPack (by simp [Codec.news_eq_badField_iff, hop])
  case h_6 hop => exact CodecOut.flags_ofPack (by simp [Codec.newu_eq_badField_iff, hop])

end Sys2Proof.Machine
end

section
/-! The statements of the family 40_codec. -/

namespace Sys2Proof.Machine

open Codec

/-- Settles O51, by what the field of the new word is. -/
theorem packThenExtractRoundTrips : Obligations.PackThenExtractRoundTrips := by
  intro cw width lsb word h hz
  refine ⟨fun v hv => ?unsigned, fun n hn => ?signed⟩
  case unsigned =>
    have hlt := (fitsu_iff _ _).1 hv
    have hfield := fieldBits_orInto_of_zero h hz (BitVec.ofNat width v)
    rw [BitVec.toNat_ofNat, Nat.mod_eq_of_lt hlt] at hfield
    refine ⟨_, newu_of_fits word h hlt, ?_, fun k hk => orInto_getLsbD_outside word hlt hk⟩
    rw [getu_of_inRange _ h, hfield, BitVec.toNat_ofNat, Nat.mod_eq_of_lt hlt]
  case signed =>
    refine ⟨_, news_of_fits word h hn, ?_, fun k hk => orInto_getLsbD_outside word (tc_lt width n) hk⟩
    rw [gets_eq_toInt _ h, tc_eq_toNat_ofInt, fieldBits_orInto_of_zero h hz, toInt_ofInt_of_fitss hn]

/-- Settles O47. -/
theorem unsignedExtractIsTheField : Obligations.UnsignedExtractIsTheField := fun _ width lsb word =>
  ⟨fun h => ⟨_, getu_of_inRange word h, BitVec.isLt _, fieldBits_getLsbD word width lsb⟩,
    (getu_eq_badField_iff word).2⟩

/-- Settles O48, by the range and the residue of `BitVec.toInt`. -/
theorem signedExtractIsTwosComplement : Obligations.SignedExtractIsTwosComplement := fun _ _ _ word =>
  ⟨fun h _ => ⟨_, _, gets_eq_toInt word h, getu_of_inRange word h, BitVec.le_toInt _,
      Int.le_sub_one_of_lt BitVec.toInt_lt, toInt_emod_two_pow _⟩,
    gets_width_zero word, (gets_eq_badField_iff word).2⟩

/-- Settles O49. -/
theorem unsignedPackOrsIntoTheField : Obligations.UnsignedPackOrsIntoTheField := fun _ _ _ value word =>
  ⟨fun h hv => ⟨_, newu_of_fits word h hv, fun _ hk => orInto_getLsbD_of_lt word hv hk⟩,
    newu_of_not_fits word, (newu_eq_badField_iff word value).2⟩

/-- Settles O50: the bits are those of O49, for the pattern `tc width value`. -/
theorem signedPackOrsTheMaskedPattern : Obligations.SignedPackOrsTheMaskedPattern := fun _ width _ value word =>
  ⟨fun h hv => ⟨_, news_of_fits word h hv, fun _ hk => orInto_getLsbD_of_lt word (tc_lt width value) hk⟩,
    news_of_not_fits word, (news_eq_badField_iff word value).2⟩

/-- Settles O52: the shifts zero-extend and sign-extend the field to the carrier. -/
theorem shiftsGiveTheExtracts : Obligations.ShiftsGiveTheExtracts := by
  intro cw width lsb word h h1
  have hle : width ≤ cw := by omega
  rw [getu_of_inRange word h, gets_eq_toInt word h, getuByShifts_eq_setWidth word h,
    getsByShifts_eq_signExtend word h h1, BitVec.toNat_setWidth_of_le hle, BitVec.toInt_signExtend_of_le hle]
  exact ⟨rfl, rfl⟩

/-- Settles O53: the field is the same at both widths, and a pack's answer at 64 is that at 32, zero-extended. -/
theorem carrierWidthDoesNotMatter : Obligations.CarrierWidthDoesNotMatter := by
  intro word width lsb h
  have hcw : 32 ≤ 64 := by decide
  have hu := newu_setWidth word h hcw
  have hs := news_setWidth word h hcw
  refine ⟨?_, ?_, fun v w hw => ?_, fun v hv => ?_, fun n w hw => ?_, fun n hn => ?_⟩
  · rw [getu_of_inRange _ (h.trans hcw), getu_of_inRange word h, fieldBits_setWidth word hcw]
  · rw [gets_eq_toInt _ (h.trans hcw), gets_eq_toInt word h, fieldBits_setWidth word hcw]
  · rw [hu, hw, Codec.Result.value_andThen]
  · rw [hu, hv]; rfl
  · rw [hs, hw, Codec.Result.value_andThen]
  · rw [hs, hn]; rfl

/-- Settles O54: a zero field is the zero bit vector, and at width 0 only 0 fits. -/
theorem zeroFieldsAndWidthZeroGiveZero : Obligations.ZeroFieldsAndWidthZeroGiveZero := by
  refine fun cw width lsb word => ⟨fun h hz => ?zeroField, fun h => ⟨getu_width_zero word h, gets_width_zero word h,
    newu_width_zero word h, news_width_zero word h, fun v hv => ?unsigned, fun n hn => ?signed⟩⟩
  case zeroField =>
    rw [getu_of_inRange word h, gets_eq_toInt word h, fieldBits_eq_zero hz, BitVec.toNat_zero, BitVec.toInt_zero]
    exact ⟨rfl, rfl⟩
  case unsigned => exact newu_of_not_fits word h (Nat.one_le_iff_ne_zero.2 hv)
  case signed => exact news_of_not_fits word h (Bool.eq_false_iff.2 (mt (fitss_zero_iff n).1 hn))

/-- Settles O57, by the operation. -/
theorem codecPortsFlagBadFields : Obligations.CodecPortsFlagBadFields := by
  intro i
  obtain ⟨hbad, hnone⟩ := codecPorts_flags i
  refine ⟨hbad, hnone, fun hop hw => ?fits⟩
  obtain h0 | h1 : i.op.toNat = 0 ∨ i.op.toNat = 1 := by omega
  · rw [codecPorts_fitss h0, fitss_toInt _ hw, CodecOut.ofFit]
  · rw [codecPorts_fitsu h1, fitsu_toNat _ hw, CodecOut.ofFit]

/-- Settles O46. -/
theorem fitTestsAreTheirBounds : Obligations.FitTestsAreTheirBounds :=
  ⟨fun n _ h1 => fitss_iff n (Nat.one_le_iff_ne_zero.1 h1), fitss_zero_iff,
    fun n width => ⟨fitsu_iff n width, fitsu_zero_iff n⟩⟩

end Sys2Proof.Machine
end

section
/-! SUPPORT. The facts that the statements about the decoder (spec/41_decoder.md) need: the decoder's field reads as
extracts of the word, the tag by its opcode value, the output lines by format, and that every instruction answers a
next state. -/

namespace Sys2Proof

open Sys2Proof.Machine

/-! ### The decoder's field reads -/

/-- R61: the opcode is bits 31:28. -/
theorem extract_opcode (w : Word) : (w.extractLsb' 28 4).toNat = (opcodeField w).val :=
  congrArg BitVec.toNat (Codec.fieldBits_eq_extract w 4 28).symm

/-- R62: `a` of format R3 is bits 8:6. -/
theorem extract_a (w : Word) : w.extractLsb' 6 3 = regLines (fieldA w) := (Codec.fieldBits_eq_extract w 3 6).symm

/-- R62: `b` is bits 5:3. -/
theorem extract_b (w : Word) : w.extractLsb' 3 3 = regLines (fieldB w) := (Codec.fieldBits_eq_extract w 3 3).symm

/-- R62: `c` is bits 2:0. -/
theorem extract_c (w : Word) : w.extractLsb' 0 3 = regLines (fieldC w) := (Codec.fieldBits_eq_extract w 3 0).symm

/-- R63: `a` of format LI is bits 27:25. -/
theorem extract_aLi (w : Word) : w.extractLsb' 25 3 = regLines (fieldALi w) := (Codec.fieldBits_eq_extract w 3 25).symm

/-- R63: the immediate is bits 24:0. -/
theorem extract_imm (w : Word) : w.extractLsb' 0 25 = fieldImm w := (Codec.fieldBits_eq_extract w 25 0).symm

@[simp] theorem regLines_toNat (r : RegIx) : (regLines r).toNat = r.val := rfl

/-! ### Tags -/

@[simp] theorem Instr.record_tag (i : Instr) : i.record.tag = i.tag := by cases i <;> rfl

/-- R101: opcode 15 has the tag of 14, and no other value changes. -/
theorem opcode_tagOf : ∀ op : Fin 16, (tagOf op).opcode = min op.val 14 := by decide

/-! ### The output lines -/

/-- R107: `tag` is the opcode, with 15 shown as 14. -/
theorem decoderPorts_tag_toNat (iw : Word) : (decoderPorts iw).tag.toNat = min (opcodeField iw).val 14 := by
  have htag : (decoderPorts iw).tag = BitVec.ofNat 4 (decode iw).record.tag.opcode := rfl
  rw [htag, Instr.record_tag, decode_tag, opcode_tagOf, BitVec.toNat_ofNat]
  exact Nat.mod_eq_of_lt (by omega)

/-- R107: `tag` is 13 for opcode 13 alone. -/
theorem decoderPorts_tag_eq_iff (iw : Word) : (decoderPorts iw).tag = 13 ↔ (opcodeField iw).val = 13 := by
  rw [← BitVec.toNat_inj, decoderPorts_tag_toNat, show (13 : BitVec 4).toNat = 13 from rfl]
  omega

/-- R107: the lines of a word of format LI. -/
theorem decoderPorts_li {iw : Word} (h : (opcodeField iw).val = 13) :
    decoderPorts iw = { tag := 13, a := regLines (fieldALi iw), b := none, c := none, bcPresent := false,
                        imm := some (fieldImm iw), immPresent := true } := by
  rw [decoderPorts, decode_record_li h]
  rfl

/-- R107: the lines of a word of format R3. -/
theorem decoderPorts_r3 {iw : Word} (h : (opcodeField iw).val ≠ 13) :
    decoderPorts iw = { tag := BitVec.ofNat 4 (tagOf (opcodeField iw)).opcode, a := regLines (fieldA iw),
                        b := some (regLines (fieldB iw)), c := some (regLines (fieldC iw)), bcPresent := true,
                        imm := none, immPresent := false } := by
  rw [decoderPorts, decode_record_r3 h]
  rfl

end Sys2Proof

namespace Sys2Proof.Machine

/-! ### Every instruction answers a next state -/

theorem ite_next {p : Prop} [Decidable p] {x y : Result} (hx : ∃ t, x = .next t) (hy : ∃ t, y = .next t) :
    ∃ t, (if p then x else y) = .next t := by
  split
  · exact hx
  · exact hy

/-- R105, R160: the checked instructions raise their cause as a next state, the tested ones have two next states, and
the others have one. -/
theorem exec_next (i : Instr) (s : State) : ∃ t, exec i s = .next t := by
  cases i
  case sload | sstore | map | unmap => exact attempt_next fun _ => ⟨_, rfl⟩
  case cmov | div | out => exact ite_next ⟨_, rfl⟩ ⟨_, rfl⟩
  case loadp => exact ite_next (attempt_next fun _ => ⟨_, rfl⟩) ⟨_, rfl⟩
  case inp =>
    simp only [exec, execInp]
    split <;> exact ⟨_, rfl⟩
  case add | mul | nand | halt | loadi | unrecognized => exact ⟨_, rfl⟩

theorem step_next (s : State) : ∃ t, step s = .next t := by
  by_cases hrun : s.status = .running
  · rw [step, hrun]
    exact attempt_next fun w => exec_next (decode w) s.advance
  · exact ⟨s, step_of_ended hrun⟩

end Sys2Proof.Machine
end

section
/-! The statements of the family 41_decoder. -/

namespace Sys2Proof.Machine

/-- Settles O8: a step is idle, raises its fetch's cause, or is an instruction, and each of these is a next state. -/
theorem nothingFaultsOrIsRefused : Obligations.NothingFaultsOrIsRefused := ⟨step_next, exec_next⟩

/-- Settles O41: the fields are extracts of the word, and the format by the opcode says which of them the record has. -/
theorem decodedFieldsAreTheirBits : Obligations.DecodedFieldsAreTheirBits := by
  intro w
  rw [extract_opcode, extract_a, extract_b, extract_c, extract_aLi, extract_imm]
  refine ⟨?tag, Instr.record_tag _, fun hop => ?li, fun hop => ?r3⟩
  case tag =>
    rw [decode_tag]
    generalize opcodeField w = op
    decide +revert
  case li =>
    rw [decode_record_li hop]
    exact ⟨rfl, rfl, rfl, rfl⟩
  case r3 =>
    rw [decode_record_r3 hop]
    exact ⟨rfl, rfl, rfl, rfl⟩

/-- Settles O45, by the lines of the two formats. -/
theorem decoderPortsShowTheDecodedFields : Obligations.DecoderPortsShowTheDecodedFields := by
  intro iw
  rw [extract_opcode, extract_a, extract_b, extract_c, extract_aLi, extract_imm, ne_eq, decoderPorts_tag_eq_iff]
  refine ⟨decoderPorts_tag_toNat iw, fun hop => ?li, fun hop => ?r3⟩
  case li =>
    rw [decoderPorts_li hop]
    exact ⟨rfl, rfl, rfl, rfl, rfl, rfl⟩
  case r3 =>
    rw [decoderPorts_r3 hop]
    exact ⟨rfl, rfl, rfl, rfl, rfl, rfl⟩

/-- Settles O42: the six fields lie inside the word. -/
theorem decoderFieldReadsAreCodecExtracts : Obligations.DecoderFieldReadsAreCodecExtracts := fun w =>
  ⟨Codec.getu_of_inRange w (by decide), Codec.getu_of_inRange w (by decide), Codec.getu_of_inRange w (by decide),
    Codec.getu_of_inRange w (by decide), Codec.getu_of_inRange w (by decide), Codec.getu_of_inRange w (by decide)⟩

end Sys2Proof.Machine
end

section
/-! SUPPORT. The facts that the statements about the register file (spec/42_register_file.md) need: `get` and `set` by
the range of the index, and the registers after one use of the ports by `reset` and `w_en`. -/

namespace Sys2Proof.Machine

/-! ### `get` and `set` by the range of the index -/

theorem getWide_of_lt (s : State) {i : Nat} (h : i < 8) : getWide s i = .ok (s.getReg ⟨i, h⟩) := dif_pos h

theorem getWide_of_le (s : State) {i : Nat} (h : 8 ≤ i) : getWide s i = .error .regIndexOutOfRange :=
  dif_neg (Nat.not_lt.2 h)

theorem setWide_of_lt (s : State) {i : Nat} (v : Word) (h : i < 8) : setWide s i v = .ok (s.setReg ⟨i, h⟩ v) :=
  dif_pos h

theorem setWide_of_le (s : State) {i : Nat} (v : Word) (h : 8 ≤ i) : setWide s i v = .error .regIndexOutOfRange :=
  dif_neg (Nat.not_lt.2 h)

/-- R112: the frame of `set`, in range or not. -/
theorem getWide_setReg_ne (s : State) {r : RegIx} (v : Word) {j : Nat} (hj : j ≠ r.val) :
    getWide (s.setReg r v) j = getWide s j := by
  by_cases h : j < 8
  · rw [getWide_of_lt _ h, getWide_of_lt s h, State.setReg_getReg_ne s v (Fin.ne_of_val_ne hj)]
  · rw [getWide_of_le _ (Nat.not_lt.1 h), getWide_of_le s (Nat.not_lt.1 h)]

/-! ### The registers after one use of the ports -/

theorem regFilePorts_regs_of_reset {i : RegFileIn} (regs : Vector Word 8) (hr : i.reset = true) :
    (regFilePorts regs i).2 = Vector.replicate 8 0 := if_pos hr

theorem regFilePorts_regs_of_write {i : RegFileIn} (regs : Vector Word 8) (hr : i.reset = false) (hw : i.wEn = true) :
    (regFilePorts regs i).2 = regs.set (regOfLines i.wIdx) i.wVal := by
  simp [regFilePorts, hr, hw]

theorem regFilePorts_regs_of_idle {i : RegFileIn} (regs : Vector Word 8) (hr : i.reset = false) (hw : i.wEn = false) :
    (regFilePorts regs i).2 = regs := by
  simp [regFilePorts, hr, hw]

/-- R114, R116: each register after the use. -/
theorem regFilePorts_regs_getElem (regs : Vector Word 8) (i : RegFileIn) {k : Nat} (hk : k < 8) :
    (regFilePorts regs i).2[k] =
      if i.reset then 0 else if i.wEn ∧ k = i.wIdx.toNat then i.wVal else regs[k] := by
  cases hr : i.reset
  case true => simp [regFilePorts_regs_of_reset regs hr]
  case false =>
    cases hw : i.wEn
    case true => simp [regFilePorts_regs_of_write regs hr hw, regOfLines, Vector.getElem_set, eq_comm]
    case false => simp [regFilePorts_regs_of_idle regs hr hw]

end Sys2Proof.Machine
end

section
/-! The statements of the family 42_register_file. -/

namespace Sys2Proof.Machine

/-- Settles O55, by the range of the index. -/
theorem registerFileGetsWhatWasSet : Obligations.RegisterFileGetsWhatWasSet := by
  refine fun s i v => ⟨fun h => ?inRange, fun h => ⟨setWide_of_le s v h, getWide_of_le s h⟩⟩
  case inRange =>
    refine ⟨s.setReg ⟨i, h⟩ v, setWide_of_lt s v h, ?same, fun j hj => getWide_setReg_ne s v hj,
      rfl, rfl, rfl, rfl, rfl, rfl⟩
    case same => rw [getWide_of_lt _ h, State.setReg_getReg_same]

/-- Settles O56: the value lines are reads of the registers before the use. -/
theorem registerFilePortsReadBeforeWrite : Obligations.RegisterFilePortsReadBeforeWrite := fun regs i =>
  ⟨rfl, rfl, rfl, fun _ hk => regFilePorts_regs_getElem regs i hk⟩

end Sys2Proof.Machine
end

section
/-! SUPPORT. The facts that the statements about the engine's cycle (spec/43_engine_cycle.md) need: every decoded
instruction is well formed, and what is observable in each status. -/

/-! ### The decoded instruction -/

namespace Sys2Proof.Laws

/-- R72: by format; the field types hold exactly the operand numbers that have an encoding. -/
theorem instr_wellFormed (i : Instr) : i.WellFormed := by
  cases i with
  | loadi a imm => exact WellFormedAlways.loadi a imm
  | _ a b c => exact r3_wf rfl a b c

end Sys2Proof.Laws

/-! ### What is observable of a run -/

namespace Sys2Proof

/-- R177, D19: whatever the free value is, it is no 0. -/
theorem Config.exitFatal_ne_zero : Config.exitFatal ≠ 0 := by
  unfold Config.exitFatal
  split
  · exact Int.negSucc_ne_zero _
  · exact Int.natCast_ne_zero.2 (Nat.succ_ne_zero _)

end Sys2Proof

namespace Sys2Proof.Machine

theorem State.observable_of_running {s : State} (h : s.status = .running) : s.observable = (s.out, none) := by
  rw [State.observable, State.exitSignal, h]

theorem State.observable_of_halted {s : State} (h : s.status = .halted) :
    s.observable = (s.out, some Config.exitOk) := by
  rw [State.observable, State.exitSignal, h]

theorem State.observable_of_fatal {s : State} {cause : FatalCause} (h : s.status = .fatal cause) :
    s.observable = (s.out, some Config.exitFatal) := by
  rw [State.observable, State.exitSignal, h]

end Sys2Proof.Machine
end

section
/-! The statements of the family 43_engine_cycle. -/

namespace Sys2Proof.Machine

/-- Settles O5: the step is the fetched instruction after the increment, and every instruction is well formed. -/
theorem stepRunsTheDecodedInstruction : Obligations.StepRunsTheDecodedInstruction := fun _ w hrun hw =>
  ⟨Laws.instr_wellFormed (decode w), step_of_fetch hrun hw⟩

/-- Settles O58, with the free value of EXIT_FATAL for the signal. -/
theorem runShowsOutputAndSignal : Obligations.RunShowsOutputAndSignal :=
  ⟨Config.exitFatal, Config.exitFatal_ne_zero, fun _ =>
    ⟨State.observable_of_running, State.observable_of_halted, fun _ => State.observable_of_fatal⟩⟩

end Sys2Proof.Machine
end

section
/-! SUPPORT. The facts that the statements about arithmetic and moves (spec/44_arithmetic_and_move.md) need: the
instruction of a word written as a sum, what a write of one register leaves unchanged, the next state of each
instruction, and the quotient as a largest number. -/

namespace Sys2Proof

/-- R72: the word of a format R3 instruction with its opcode already shifted to bits 31:28. -/
theorem decode_r3Sum {i : Instr} {t : Tag} {a b c : RegIx} {op : Nat} (hrec : i.record = .r3 t a b c)
    (ht : t ≠ .loadi) (hop : op = t.opcode * 2 ^ 28) :
    decode (BitVec.ofNat 32 (op + a.val * 64 + b.val * 8 + c.val)) = i := by
  obtain rfl : i.tag = t := (Instr.record_tag i).symm.trans (congrArg DecodedRecord.tag hrec)
  rw [hop]
  exact decode_encodeR3 ht hrec

end Sys2Proof

namespace Sys2Proof.Machine

/-- R112: a write of one register changes nothing else. -/
theorem State.setReg_frame (s : State) (r : RegIx) (v : Word) :
    SameRegsBut r s (s.setReg r v) ∧ (s.setReg r v).mem = s.mem ∧ SameRest s (s.setReg r v) :=
  ⟨fun _ hq => State.setReg_getReg_ne s v hq, rfl, rfl, rfl, rfl, rfl, rfl⟩

/-! ### The next state of each instruction -/

theorem exec_cmov_of_ne {a b c : RegIx} {s : State} (h : s.getReg c ≠ 0) :
    exec (.cmov a b c) s = .next (s.setReg a (s.getReg b)) :=
  if_pos ((isNonZero_iff _).2 h)

theorem exec_cmov_of_eq {a b c : RegIx} {s : State} (h : s.getReg c = 0) : exec (.cmov a b c) s = .next s :=
  if_neg fun hc => (isNonZero_iff _).1 hc h

theorem exec_add (a b c : RegIx) (s : State) :
    exec (.add a b c) s = .next (s.setReg a (addWords (s.getReg b) (s.getReg c))) := rfl

theorem exec_mul (a b c : RegIx) (s : State) :
    exec (.mul a b c) s = .next (s.setReg a (mulWords (s.getReg b) (s.getReg c))) := rfl

theorem exec_div_of_ne {a b c : RegIx} {s : State} (h : s.getReg c ≠ 0) :
    exec (.div a b c) s = .next (s.setReg a (divWords (s.getReg b) (s.getReg c))) :=
  if_neg (mt (isZero_iff _).1 h)

theorem exec_div_of_eq {a b c : RegIx} {s : State} (h : s.getReg c = 0) :
    exec (.div a b c) s = .next (s.setStatus (.fatal .divideByZero)) :=
  if_pos ((isZero_iff _).2 h)

theorem exec_nand (a b c : RegIx) (s : State) :
    exec (.nand a b c) s = .next (s.setReg a (nandWords (s.getReg b) (s.getReg c))) := rfl

theorem exec_loadi (a : RegIx) (imm : Imm) (s : State) :
    exec (.loadi a imm) s = .next (s.setReg a (zextImm imm)) := rfl

/-! ### The quotient -/

/-- R8, R133: the quotient is the largest `q` whose product with the divisor is at most the dividend. -/
theorem le_divWords_toNat_iff (x : Word) {y : Word} (hy : y ≠ 0) (q : Nat) :
    q ≤ (divWords x y).toNat ↔ q * y.toNat ≤ x.toNat := by
  have hpos : 0 < y.toNat := Nat.pos_of_ne_zero (BitVec.toNat_ne.1 hy)
  rw [divWords_toNat, Nat.le_div_iff_mul_le hpos]

end Sys2Proof.Machine
end

section
/-! The statements of the family 44_arithmetic_and_move. -/

namespace Sys2Proof.Machine

/-- Settles O18, by whether the divisor is 0. -/
theorem divIsTheFloorQuotient : Obligations.DivIsTheFloorQuotient := by
  refine fun a b c s => ⟨decode_r3Sum rfl (by decide) (by decide), fun hc => ?quotient, exec_div_of_eq⟩
  case quotient =>
    refine ⟨_, exec_div_of_ne hc, ?_⟩
    rw [State.setReg_getReg_same]
    have hq := le_divWords_toNat_iff (s.getReg b) hc
    exact ⟨(hq _).1 le_rfl, fun q => (hq q).2, State.setReg_frame s a _⟩

/-- Settles O15, by whether the condition is 0. -/
theorem cmovMovesWhenTheConditionIsNotZero : Obligations.CmovMovesWhenTheConditionIsNotZero := by
  refine fun a b c s => ⟨decode_r3Sum rfl (by decide) (by decide), ?_⟩
  by_cases hc : s.getReg c = 0
  · exact ⟨s, exec_cmov_of_eq hc, fun hne => absurd hc hne, fun _ => rfl,
      fun _ _ => rfl, rfl, rfl, rfl, rfl, rfl, rfl⟩
  · exact ⟨_, exec_cmov_of_ne hc, fun _ => State.setReg_getReg_same s a _, fun he => absurd he hc,
      State.setReg_frame s a _⟩

/-- Settles O16. -/
theorem addIsModulo : Obligations.AddIsModulo := by
  refine fun a b c s =>
    ⟨decode_r3Sum rfl (by decide) (by decide), _, exec_add a b c s, ?sum, State.setReg_frame s a _⟩
  case sum => rw [State.setReg_getReg_same, addWords_toNat]

/-- Settles O17. -/
theorem mulIsModulo : Obligations.MulIsModulo := by
  refine fun a b c s =>
    ⟨decode_r3Sum rfl (by decide) (by decide), _, exec_mul a b c s, ?product, State.setReg_frame s a _⟩
  case product => rw [State.setReg_getReg_same, mulWords_toNat]

/-- Settles O19. -/
theorem nandIsBitwise : Obligations.NandIsBitwise := by
  refine fun a b c s =>
    ⟨decode_r3Sum rfl (by decide) (by decide), _, exec_nand a b c s, fun k hk => ?bit, State.setReg_frame s a _⟩
  case bit => rw [State.setReg_getReg_same, nandWords_getLsbD _ _ hk]

/-- Settles O20. -/
theorem loadiZeroExtends : Obligations.LoadiZeroExtends := by
  refine fun a imm s => ⟨decode_encodeLI a imm, _, exec_loadi a imm s, ?value, State.setReg_frame s a _⟩
  case value => rw [State.setReg_getReg_same, zextImm_toNat]

end Sys2Proof.Machine
end

section
/-! SUPPORT. The facts that the statements about the segment instructions (spec/45_segment_memory_ops.md) need: when
each operation of the segment manager succeeds and fails, the reads after it, and the next state of each instruction. -/

namespace Sys2Proof.Machine

/-! ### When a read and a write succeed and fail -/

/-- R34: a read answers the word of the spec's list. -/
theorem memRead_of_getElem? {m : Memory} {p i : Nat} {w : Word} (hp : p < m.table.length)
    (hw : (m.entry p).data[i]? = some w) : memRead m p i = .ok w := by
  rw [memRead_data, if_pos hp, hw]

theorem memRead_of_table_length_le {m : Memory} {p : Nat} (i : Nat) (hp : m.table.length ≤ p) :
    memRead m p i = .error .segAddrOutOfRange := by
  rw [memRead_eq, if_neg (Nat.not_lt.2 hp)]

theorem memRead_of_wordCount_le {m : Memory} {p i : Nat} (hp : p < m.table.length) (hi : m.wordCount p ≤ i) :
    memRead m p i = .error .segIndexOutOfRange := by
  have hlen : ¬ i < (m.entry p).len := Nat.not_lt.2 hi
  rw [memRead_eq, if_pos hp, if_neg hlen]

/-- R35: the checks of a write are those of a read. -/
theorem memWrite_of_memRead_error {m : Memory} {p i : Nat} {cause : FatalCause} (v : Word)
    (h : memRead m p i = .error cause) : memWrite m p i v = .error cause := by
  rw [memRead_eq] at h
  rw [memWrite_eq]
  split_ifs at h ⊢ <;> simpa using h

/-- A read sees of the table only whether it has the address, and the entry there. -/
theorem memRead_congr {m m' : Memory} {p : Nat} (hlen : p < m'.table.length ↔ p < m.table.length)
    (hentry : m'.entry p = m.entry p) (i : Nat) : memRead m' p i = memRead m p i := by
  simp only [memRead_eq, hlen, hentry]

/-! ### What a write keeps -/

theorem memWrite_live {m m' : Memory} {s i : Nat} {v : Word} (h : memWrite m s i v = .ok m') (p : Nat) :
    (m'.entry p).live = (m.entry p).live := by
  rw [memWrite_entry h]
  split
  · subst p; rfl
  · rfl

theorem memWrite_pool {m m' : Memory} {s i : Nat} {v : Word} (h : memWrite m s i v = .ok m') : m'.pool = m.pool := by
  obtain ⟨-, -, rfl⟩ := memWrite_ok h
  rfl

/-! ### Freeing -/

/-- R33: the address of a live segment can be freed. -/
theorem free_of_live {m : Memory} {s : Nat} (hs : s < m.table.length) (hlive : (m.entry s).live = true) :
    free m s = .ok { table := m.table.set s Segment.freed, pool := s :: m.pool } := by
  rw [free_eq, if_pos ⟨hs, hlive⟩]

theorem free_of_not_live {m : Memory} {s : Nat} (h : m.table.length ≤ s ∨ (m.entry s).live = false) :
    free m s = .error .freeInvalid := by
  rw [free_eq, if_neg]
  rintro ⟨hs, hlive⟩
  rcases h with hout | hdead
  · omega
  · simp [hlive] at hdead

theorem free_table_length {m m' : Memory} {s : Nat} (h : free m s = .ok m') : m'.table.length = m.table.length := by
  obtain ⟨-, -, rfl⟩ := free_ok h
  exact List.length_set

theorem memRead_free_ne {m m' : Memory} {s p : Nat} (h : free m s = .ok m') (hp : p ≠ s) (i : Nat) :
    memRead m' p i = memRead m p i :=
  memRead_congr (by rw [free_table_length h]) (free_entry_ne h hp) i

/-! ### Allocating -/

/-- R32: the pool's top is reused. -/
theorem allocate_of_pool_cons {m : Memory} {s : Nat} {rest : List Nat} (n : Nat) (hpool : m.pool = s :: rest) :
    allocate true m n = .ok ({ table := m.table.set s (Segment.zeroed n), pool := rest }, s) := by
  simp [allocate, hpool]

/-- R32: with no address to reuse the table grows. -/
theorem allocate_of_pool_nil {m : Memory} (n : Nat) (hpool : m.pool = [])
    (hroom : m.table.length < Config.maxSegments) :
    allocate true m n = .ok ({ table := m.table ++ [Segment.zeroed n], pool := [] }, m.table.length) := by
  simp only [allocate, hpool, Bool.true_eq_false, if_false, if_neg (Nat.not_le.2 hroom)]

/-- R48: an address of well formed memory, or the next one of a table that can grow, is below `MAX_SEGMENTS`. -/
theorem allocate_address_lt {b : Bool} {m : Memory} {n : Nat} {r : Memory × Nat} (hwf : m.wf)
    (h : allocate b m n = .ok r) : r.2 < Config.maxSegments := by
  obtain ⟨-, ⟨rest, hpool, -⟩ | ⟨-, haddr, hroom, -⟩⟩ := allocate_ok h
  · obtain ⟨hlt, -⟩ := (Memory.mem_pool_iff hwf r.2).1 (by simp [hpool])
    obtain ⟨-, hmax, -⟩ := hwf
    exact hlt.trans_le hmax
  · exact haddr ▸ hroom

/-- R32: the table has an address after an allocation if it had it before, or if the allocation answered it. -/
theorem allocate_lt_table_length_iff {b : Bool} {m : Memory} {n p : Nat} {r : Memory × Nat}
    (h : allocate b m n = .ok r) (hp : p ≠ r.2) : p < r.1.table.length ↔ p < m.table.length := by
  obtain ⟨-, ⟨rest, -, hr⟩ | ⟨-, haddr, -, hr⟩⟩ := allocate_ok h
  · rw [hr, List.length_set]
  · rw [hr, List.length_append, List.length_singleton]
    omega

/-- R32: an allocation makes a live segment of zero words and leaves every other entry and word as it was. -/
theorem allocate_frame {b : Bool} {m : Memory} {n : Nat} {r : Memory × Nat} (hwf : m.wf)
    (h : allocate b m n = .ok r) :
    (r.1.entry r.2).live = true ∧ (r.1.entry r.2).data = List.replicate n 0 ∧
    (∀ q, q ≠ r.2 → r.1.entry q = m.entry q) ∧ ∀ q i, q ≠ r.2 → memRead r.1 q i = memRead m q i := by
  rw [allocate_entry hwf h]
  exact ⟨rfl, Segment.data_zeroed n, fun _ hq => allocate_entry_ne h hq,
    fun _ i hq => memRead_congr (allocate_lt_table_length_iff h hq) (allocate_entry_ne h hq) i⟩

/-! ### The next state of each instruction -/

theorem wordOfAddress_toNat {s : Nat} (h : s < Config.maxSegments) : (wordOfAddress s).toNat = s := by
  rw [wordOfAddress, BitVec.toNat_ofNat]
  exact Nat.mod_eq_of_lt h

/-- R18, R19: a new memory changes no register and nothing of the rest. -/
theorem State.setMem_frame (s : State) (m : Memory) : SameRegs s (s.setMem m) ∧ SameRest s (s.setMem m) :=
  ⟨fun _ => rfl, rfl, rfl, rfl, rfl, rfl⟩

theorem exec_sload (a b c : RegIx) (s : State) : exec (.sload a b c) s =
    attempt (memRead s.mem (s.regNat b) (s.regNat c)) s (fun w => .next (s.setReg a w)) := rfl

theorem exec_sstore (a b c : RegIx) (s : State) : exec (.sstore a b c) s =
    attempt (memWrite s.mem (s.regNat a) (s.regNat b) (s.getReg c)) s (fun m => .next (s.setMem m)) := rfl

theorem exec_unmap (a b c : RegIx) (s : State) : exec (.unmap a b c) s =
    attempt (free s.mem (s.regNat c)) s (fun m => .next (s.setMem m)) := rfl

/-- R142: a MAP that allocates goes on with the new memory and the address in `b`, the one register that changes. -/
theorem exec_map_of_ok (a b : RegIx) {c : RegIx} {s : State} {r : Memory × Nat} (hwf : s.mem.wf)
    (hok : s.allocOk (s.regNat c) = true) (h : allocate true s.mem (s.regNat c) = .ok r) :
    ∃ t, exec (.map a b c) s = .next t ∧ t.mem = r.1 ∧ (t.getReg b).toNat = r.2 ∧
      (t.mem.entry r.2).live = true ∧ (t.mem.entry r.2).data = List.replicate (s.regNat c) 0 ∧
      (∀ q, q ≠ r.2 → t.mem.entry q = s.mem.entry q) ∧ (∀ q i, q ≠ r.2 → memRead t.mem q i = memRead s.mem q i) ∧
      SameRegsBut b s t ∧ SameRest s t := by
  obtain ⟨hlive, hdata, hentry, hread⟩ := allocate_frame hwf h
  obtain ⟨hregs, -, hrest⟩ := State.setReg_frame (s.setMem r.1) b (wordOfAddress r.2)
  refine ⟨_, attempt_ok (hok.symm ▸ h), rfl, ?address, hlive, hdata, hentry, hread, hregs, hrest⟩
  case address => rw [State.setReg_getReg_same, wordOfAddress_toNat (allocate_address_lt hwf h)]

theorem exec_map_of_error (a b : RegIx) {c : RegIx} {s : State} {cause : FatalCause}
    (h : allocate (s.allocOk (s.regNat c)) s.mem (s.regNat c) = .error cause) :
    exec (.map a b c) s = .next (s.setStatus (.fatal cause)) :=
  attempt_error h

end Sys2Proof.Machine
end

section
/-! The statements of the family 45_segment_memory_ops. -/

namespace Sys2Proof.Machine

/-- Settles O21, by what the read answers. -/
theorem sloadReadsOneWord : Obligations.SloadReadsOneWord := by
  refine fun a b c s => ⟨decode_r3Sum rfl (by decide) (by decide), fun hb hc => ?word, fun hb => ?address,
    fun hb hc => ?index⟩
  case word =>
    obtain ⟨w, hw⟩ : ∃ w, (s.mem.entry (s.regNat b)).data[s.regNat c]? = some w :=
      ⟨_, List.getElem?_eq_getElem ((Segment.data_length _).symm ▸ hc)⟩
    refine ⟨s.setReg a w, (exec_sload a b c s).trans (attempt_ok (memRead_of_getElem? hb hw)), ?_,
      State.setReg_frame s a w⟩
    rw [State.setReg_getReg_same, hw]
  case address => exact (exec_sload a b c s).trans (attempt_error (memRead_of_table_length_le _ hb))
  case index => exact (exec_sload a b c s).trans (attempt_error (memRead_of_wordCount_le hb hc))

/-- Settles O22: a write fails as the read there does, and else a read after it (O35) gives the words. -/
theorem sstoreWritesOneWord : Obligations.SstoreWritesOneWord := by
  refine fun a b c s => ⟨decode_r3Sum rfl (by decide) (by decide), fun _ hb => ?word, fun ha => ?address,
    fun ha hb => ?index⟩
  case word =>
    obtain ⟨m, hm⟩ := memWrite_of_lt_wordCount (s.getReg c) hb
    have hread := memRead_memWrite hm
    exact ⟨s.setMem m, (exec_sstore a b c s).trans (attempt_ok hm), (hread _ _).trans (if_pos ⟨rfl, rfl⟩),
      fun p i hne => (hread p i).trans (if_neg hne), fun p => ⟨memWrite_live hm p, memWrite_wordCount hm p⟩,
      memWrite_table_length hm, memWrite_pool hm, State.setMem_frame s m⟩
  case address =>
    exact (exec_sstore a b c s).trans
      (attempt_error (memWrite_of_memRead_error _ (memRead_of_table_length_le _ ha)))
  case index =>
    exact (exec_sstore a b c s).trans
      (attempt_error (memWrite_of_memRead_error _ (memRead_of_wordCount_le ha hb)))

/-- Settles O23, by the two ways an allocation succeeds and the two ways it fails. -/
theorem mapAllocatesZeroWords : Obligations.MapAllocatesZeroWords := by
  refine fun a b c s hwf => ⟨decode_r3Sum rfl (by decide) (by decide), fun p rest hok hpool => ?reused,
    fun hok hpool hroom => ?grown, fun hrefused => ?refused, fun hpool hfull => ?full⟩
  case reused =>
    obtain ⟨t, hexec, hmem, haddr, hlive, hdata, hentry, hread, hsame⟩ :=
      exec_map_of_ok a b hwf hok (allocate_of_pool_cons _ hpool)
    refine ⟨t, hexec, haddr, hlive, hdata, hentry, hread, ?_, ?_, hsame⟩
    · rw [hmem, List.length_set]
    · rw [hmem]
  case grown =>
    obtain ⟨t, hexec, hmem, haddr, hlive, hdata, hentry, hread, hsame⟩ :=
      exec_map_of_ok a b hwf hok (allocate_of_pool_nil _ hpool hroom)
    refine ⟨t, hexec, haddr, hlive, hdata, hentry, hread, ?_, ?_, hsame⟩
    · rw [hmem, List.length_append, List.length_singleton]
    · rw [hmem]
  case refused => exact exec_map_of_error a b (allocate_error.2 ⟨rfl, .inl hrefused⟩)
  case full => exact exec_map_of_error a b (allocate_error.2 ⟨rfl, .inr ⟨hpool, hfull.ge⟩⟩)

/-- Settles O24, by whether the address is that of a live segment. -/
theorem unmapFreesTheSegment : Obligations.UnmapFreesTheSegment := by
  refine fun a b c s => ⟨decode_r3Sum rfl (by decide) (by decide), fun hc hlive => ?freed,
    fun hdead => (exec_unmap a b c s).trans (attempt_error (free_of_not_live hdead))⟩
  case freed =>
    have hfree := free_of_live hc hlive
    have hempty := (free_entry hfree (s.regNat c)).trans (if_pos rfl)
    exact ⟨_, (exec_unmap a b c s).trans (attempt_ok hfree), congrArg Segment.live hempty,
      congrArg Segment.len hempty, fun _ hq => free_entry_ne hfree hq, fun _ i hq => memRead_free_ne hfree hq i,
      free_table_length hfree, rfl, State.setMem_frame s _⟩

/-- Settles O31: address 0 is one that is not live, as any that an allocation answers. -/
theorem allocationNeverReturnsALiveAddress : Obligations.AllocationNeverReturnsALiveAddress := by
  intro m m' n s hwf h
  have hdead : (m.entry s).live = false := allocate_address_not_live hwf h
  refine ⟨hdead, ?notZero, allocate_address_lt hwf h⟩
  case notZero =>
    rintro hlive rfl
    simp [hlive] at hdead

/-- Settles O32: the two frees put `y` on `x` on the pool; `y` is not `x`, since `x` was freed before `y`. -/
theorem freedAddressesAreReusedLastFirst : Obligations.FreedAddressesAreReusedLastFirst := by
  intro m m1 m2 x y n k hx hy
  obtain ⟨hxlt, -, hm1⟩ := free_ok hx
  obtain ⟨hylt, hylive, rfl⟩ := free_ok hy
  have hne : y ≠ x := by
    rintro rfl
    simp [free_entry hx, Segment.freed] at hylive
  subst hm1
  rw [List.length_set] at hylt
  refine ⟨_, _, allocate_of_pool_cons n rfl, allocate_of_pool_cons k rfl, ?last, ?first, ?length, rfl⟩
  case last => simp [Memory.entry_set, hne, hylt, Segment.data_zeroed]
  case first => simp [Memory.entry_set, hxlt, Segment.data_zeroed]
  case length => simp only [List.length_set]

end Sys2Proof.Machine
end

section
/-! SUPPORT. The facts that the statements about control and the streams (spec/46_control_and_io.md) need: the words
that decode to HALT and to UNRECOGNIZED, the byte that OUT appends, when LOADP's copy succeeds and fails, the next state
of each instruction, and which instruction and which step end a run in `Halted`. -/

namespace Sys2Proof

/-! ### The words of HALT and of UNRECOGNIZED -/

/-- R105, R150: the opcode alone makes a word a HALT. -/
theorem decode_tag_halt {w : Word} (h : w.toNat / 2 ^ 28 = 7) : (decode w).tag = .halt :=
  (decode_tag w).trans (tagOf_of_eq_opcode ((opcodeField_val w).trans h))

/-- R101: the tag that the opcode values from 14 on share. -/
theorem tagOf_eq_unrecognized_iff : ∀ op : Fin 16, tagOf op = .unrecognized ↔ 14 ≤ op.val := by decide

/-- R154: the words with opcode 14 or 15 are those from 14 * 2^28 on. -/
theorem decode_tag_unrecognized_iff (w : Word) : (decode w).tag = .unrecognized ↔ 0xE0000000 ≤ w.toNat := by
  rw [decode_tag, tagOf_eq_unrecognized_iff, opcodeField_val, Nat.le_div_iff_mul_le (Nat.two_pow_pos 28)]

theorem eq_halt_of_tag {i : Instr} (h : i.tag = .halt) : ∃ a b c, i = .halt a b c := by
  cases i with
  | halt a b c => exact ⟨a, b, c, rfl⟩
  | _ => cases h

end Sys2Proof

namespace Sys2Proof.Machine

/-! ### The streams -/

/-- R151: a value of at most 255 is its byte's. -/
theorem byteOf_toNat {w : Word} (h : w.toNat ≤ 255) : (byteOf w).toNat = w.toNat := by
  rw [byteOf, BitVec.toNat_setWidth]
  exact Nat.mod_eq_of_lt (Nat.lt_succ_of_le h)

theorem State.inByte_of_cons {s : State} {v : Byte} {rest : List Byte} (h : s.inp = v :: rest) :
    s.inByte = (some v, s.setInp rest) := by
  rw [State.inByte, h]

theorem State.inByte_of_nil {s : State} (h : s.inp = []) : s.inByte = (none, s) := by
  rw [State.inByte, h]

/-! ### The copy into segment 0 -/

/-- R36: a live segment can be copied. -/
theorem replaceZero_of_live {m : Memory} {s : Nat} (hs : s < m.table.length) (hlive : (m.entry s).live = true) :
    replaceZero m s =
      .ok { m with table := m.table.set 0 { live := true, len := (m.entry s).len, cells := (m.entry s).cells } } := by
  rw [replaceZero_eq, if_pos hs, if_pos hlive]

theorem replaceZero_of_table_length_le {m : Memory} {s : Nat} (hs : m.table.length ≤ s) :
    replaceZero m s = .error .segAddrOutOfRange := by
  rw [replaceZero_eq, if_neg (Nat.not_lt.2 hs)]

/-- R168, D17: a freed segment cannot be copied. -/
theorem replaceZero_of_not_live {m : Memory} {s : Nat} (hs : s < m.table.length) (hdead : (m.entry s).live = false) :
    replaceZero m s = .error .segNotLive := by
  rw [replaceZero_eq, if_pos hs, if_neg (Bool.eq_false_iff.1 hdead)]

/-- R36, R37: a copy makes segment 0 live with the words of its source, and leaves every other entry and word, the
length of the table and the pool as they were. -/
theorem replaceZero_frame {m m' : Memory} {s : Nat} (h : replaceZero m s = .ok m') :
    (m'.entry 0).live = true ∧ (m'.entry 0).data = (m.entry s).data ∧
    (∀ q, q ≠ 0 → m'.entry q = m.entry q) ∧ (∀ q i, q ≠ 0 → memRead m' q i = memRead m q i) ∧
    m'.table.length = m.table.length ∧ m'.pool = m.pool := by
  have hzero : m'.entry 0 = { m.entry s with live := true } := (replaceZero_entry h 0).trans (if_pos rfl)
  have hrest : m'.table.length = m.table.length ∧ m'.pool = m.pool := by
    obtain ⟨-, -, rfl⟩ := replaceZero_ok h
    exact ⟨List.length_set, rfl⟩
  rw [hzero]
  exact ⟨rfl, rfl, fun _ hq => replaceZero_entry_ne h hq,
    fun _ i hq => memRead_congr (by rw [hrest.1]) (replaceZero_entry_ne h hq) i, hrest⟩

/-! ### The next state of each instruction -/

theorem exec_halt (a b c : RegIx) (s : State) : exec (.halt a b c) s = .next (s.setStatus .halted) := rfl

theorem exec_unrecognized (a b c : RegIx) (s : State) :
    exec (.unrecognized a b c) s = .next (s.setStatus (.fatal .unrecognizedOpcode)) := rfl

theorem exec_out_of_le (a b : RegIx) {c : RegIx} {s : State} (h : (s.getReg c).toNat ≤ 255) :
    exec (.out a b c) s = .next (s.outByte (byteOf (s.getReg c))) :=
  if_pos ((isByte_iff _).2 h)

theorem exec_out_of_lt (a b : RegIx) {c : RegIx} {s : State} (h : 255 < (s.getReg c).toNat) :
    exec (.out a b c) s = .next (s.setStatus (.fatal .outputOutOfRange)) :=
  if_neg fun hbyte => Nat.not_le.2 h ((isByte_iff _).1 hbyte)

theorem exec_inp_of_cons (a b c : RegIx) {s : State} {v : Byte} {rest : List Byte} (h : s.inp = v :: rest) :
    exec (.inp a b c) s = .next ((s.setInp rest).setReg c (zextByte v)) := by
  rw [exec, execInp, State.inByte_of_cons h]

theorem exec_inp_of_nil (a b c : RegIx) {s : State} (h : s.inp = []) :
    exec (.inp a b c) s = .next (s.setReg c Config.endOfInput) := by
  rw [exec, execInp, State.inByte_of_nil h]

/-- R153: with x[b] equal to 0 a LOADP only jumps. -/
theorem exec_loadp_of_eq (a c : RegIx) {b : RegIx} {s : State} (h : s.getReg b = 0) :
    exec (.loadp a b c) s = .next (s.setPc (s.regNat c)) :=
  if_neg fun hb => (isNonZero_iff _).1 hb h

/-- R153: with x[b] not 0 a LOADP jumps after the copy, or raises what the copy does. -/
theorem exec_loadp_of_ne (a c : RegIx) {b : RegIx} {s : State} (h : s.getReg b ≠ 0) : exec (.loadp a b c) s =
    attempt (replaceZero s.mem (s.regNat b)) s (fun m => .next ((s.setMem m).setPc (s.regNat c))) :=
  if_pos ((isNonZero_iff _).2 h)

/-! ### The end of a run in `Halted` -/

/-- R150: of the instructions of a running machine HALT alone, which never raises, ends in `Halted`. -/
theorem exec_halted_iff {i : Instr} {s t : State} (hrun : s.status = .running) (h : exec i s = .next t) :
    t.status = .halted ↔ i.tag = .halt := by
  constructor
  · intro ht
    by_contra hi
    rcases exec_cases i s t h with ⟨cause, rfl⟩ | ⟨hstatus, -⟩
    · cases ht
    · rw [hstatus, if_neg hi, hrun] at ht
      cases ht
  · intro hi
    obtain ⟨a, b, c, rfl⟩ := eq_halt_of_tag hi
    cases h
    rfl

/-- R150, R163: the fetch that fails is fatal, and the one that succeeds gives the instruction that ends the run. -/
theorem step_halted_iff {s t : State} (hrun : s.status = .running) (h : step s = .next t) :
    t.status = .halted ↔ ∃ w, memRead s.mem 0 s.pc = .ok w ∧ (decode w).tag = .halt := by
  rcases step_cases h with ⟨hended, -⟩ | ⟨-, hpast, rfl⟩ | ⟨-, w, hw, hexec⟩
  · exact absurd hrun hended
  · refine ⟨nofun, ?_⟩
    rintro ⟨w, hw, -⟩
    exact absurd (memRead_ok_lt hw) (Nat.not_lt.2 hpast)
  · rw [exec_halted_iff (s := s.advance) hrun hexec]
    simp [hw]

end Sys2Proof.Machine
end

section
/-! The statements of the family 46_control_and_io. -/

namespace Sys2Proof.Machine

/-- Settles O9, by whether the fetch succeeds. -/
theorem onlyHaltEndsARunCleanly : Obligations.OnlyHaltEndsARunCleanly := fun _ _ => step_halted_iff

/-- Settles O28, by whether x[b] is 0, and then by whether the copy succeeds. -/
theorem loadpCopiesAndJumps : Obligations.LoadpCopiesAndJumps := by
  refine fun a b c s => ⟨decode_r3Sum rfl (by decide) (by decide), fun hb => ?jump, fun hb hlt hlive => ?copy,
    fun hb hle => ?address, fun hb hlt hdead => ?freed⟩
  case jump => exact ⟨_, exec_loadp_of_eq a c hb, rfl, fun _ => rfl, rfl, rfl, rfl, rfl, rfl⟩
  case copy =>
    have hcopy := replaceZero_of_live hlt hlive
    obtain ⟨hzero, hdata, hentry, hread, hlen, hpool⟩ := replaceZero_frame hcopy
    exact ⟨_, (exec_loadp_of_ne a c hb).trans (attempt_ok hcopy), rfl, hzero, hdata, hentry, hread, hlen, hpool,
      fun _ => rfl, rfl, rfl, rfl, rfl⟩
  case address => exact (exec_loadp_of_ne a c hb).trans (attempt_error (replaceZero_of_table_length_le hle))
  case freed => exact (exec_loadp_of_ne a c hb).trans (attempt_error (replaceZero_of_not_live hlt hdead))

/-- Settles O25. -/
theorem haltEndsTheRun : Obligations.HaltEndsTheRun := fun a b c s =>
  ⟨fun _ => decode_tag_halt, _, exec_halt a b c s, rfl, rfl, fun _ => rfl, rfl, rfl, rfl, rfl, rfl⟩

/-- Settles O26, by whether the value is a byte's. -/
theorem outAppendsOneByte : Obligations.OutAppendsOneByte := fun a b _ _ =>
  ⟨decode_r3Sum rfl (by decide) (by decide),
    fun hc => ⟨_, _, exec_out_of_le a b hc, byteOf_toNat hc, rfl, fun _ => rfl, rfl, rfl, rfl, rfl, rfl⟩,
    exec_out_of_lt a b⟩

/-- Settles O27, by whether the input has a byte left. -/
theorem inReadsOneByteOrTheSentinel : Obligations.InReadsOneByteOrTheSentinel := by
  refine fun a b c s => ⟨decode_r3Sum rfl (by decide) (by decide), fun v rest hinp => ?byte, fun hinp => ?sentinel⟩
  case byte =>
    refine ⟨_, exec_inp_of_cons a b c hinp, ?_, rfl, fun _ hq => State.setReg_getReg_ne _ _ hq,
      rfl, rfl, rfl, rfl, rfl⟩
    rw [State.setReg_getReg_same, zextByte_toNat]
  case sentinel =>
    refine ⟨_, exec_inp_of_nil a b c hinp, ?_, hinp, fun _ hq => State.setReg_getReg_ne _ _ hq,
      rfl, rfl, rfl, rfl, rfl⟩
    rw [State.setReg_getReg_same]
    rfl

/-- Settles O29. -/
theorem unrecognizedIsFatal : Obligations.UnrecognizedIsFatal := fun a b c s =>
  ⟨decode_tag_unrecognized_iff, exec_unrecognized a b c s⟩

end Sys2Proof.Machine
end

section
/-! SUPPORT. The facts that the statements about fatal errors (spec/60_exceptions.md) and about the boot interface
(spec/70_reset_and_hazards.md) need: that an instruction which raises does nothing else, and never with the cause of a
failed fetch; the step whose fetch fails; and the bytes of a program. -/

namespace Sys2Proof.Machine

/-! ### An instruction that raises -/

/-- R160, R171: of the two things an instruction of a running machine can do, raising alone ends in a fatal error. -/
theorem exec_eq_setStatus_of_fatal {i : Instr} {s t : State} {cause : FatalCause} (hrun : s.status = .running)
    (h : exec i s = .next t) (ht : t.status = .fatal cause) : t = s.setStatus (.fatal cause) := by
  rcases exec_cases i s t h with ⟨c, rfl⟩ | ⟨hstatus, -⟩
  · exact congrArg s.setStatus ht
  · rw [hstatus, hrun] at ht
    split at ht <;> cases ht

/-! ### No instruction raises FetchOutOfBounds -/

theorem memRead_ne_fetchOutOfBounds (m : Memory) (p i : Nat) : memRead m p i ≠ .error .fetchOutOfBounds := by
  rw [memRead_eq]
  split_ifs <;> nofun

theorem memWrite_ne_fetchOutOfBounds (m : Memory) (p i : Nat) (v : Word) :
    memWrite m p i v ≠ .error .fetchOutOfBounds := by
  rw [memWrite_eq]
  split_ifs <;> nofun

theorem allocate_ne_fetchOutOfBounds (b : Bool) (m : Memory) (n : Nat) :
    allocate b m n ≠ .error .fetchOutOfBounds :=
  fun h => nomatch (allocate_error.1 h).1

theorem free_ne_fetchOutOfBounds (m : Memory) (p : Nat) : free m p ≠ .error .fetchOutOfBounds := by
  rw [free_eq]
  split_ifs <;> nofun

theorem replaceZero_ne_fetchOutOfBounds (m : Memory) (p : Nat) : replaceZero m p ≠ .error .fetchOutOfBounds := by
  rw [replaceZero_eq]
  split_ifs <;> nofun

/-- A checked operation that cannot fail with a cause does not raise it, when what may follow leaves the machine
running. -/
theorem attempt_status_ne_fatal {α : Type} {r : Except FatalCause α} {s t : State} {k : α → Result}
    {cause : FatalCause} (h : attempt r s k = .next t) (hr : r ≠ .error cause)
    (hk : ∀ v, ∃ u, k v = .next u ∧ u.status = .running) : t.status ≠ .fatal cause := by
  refine mt (attempt_fatal_iff (fun v hv => ?_) h).1 hr
  obtain ⟨u, hu, hrun⟩ := hk v
  cases hu.symm.trans hv
  rw [hrun]
  nofun

/-- R163: the cause of a failed fetch is that of no instruction. -/
theorem exec_status_ne_fetchOutOfBounds {i : Instr} {s t : State} (hrun : s.status = .running)
    (h : exec i s = .next t) : t.status ≠ .fatal .fetchOutOfBounds := by
  cases i with
  | sload a b c => exact attempt_status_ne_fatal h (memRead_ne_fetchOutOfBounds _ _ _) fun _ => ⟨_, rfl, hrun⟩
  | sstore a b c => exact attempt_status_ne_fatal h (memWrite_ne_fetchOutOfBounds _ _ _ _) fun _ => ⟨_, rfl, hrun⟩
  | map a b c => exact attempt_status_ne_fatal h (allocate_ne_fetchOutOfBounds _ _ _) fun _ => ⟨_, rfl, hrun⟩
  | unmap a b c => exact attempt_status_ne_fatal h (free_ne_fetchOutOfBounds _ _) fun _ => ⟨_, rfl, hrun⟩
  | loadp a b c =>
    by_cases hb : s.getReg b = 0
    · cases (exec_loadp_of_eq a c hb).symm.trans h
      simp [hrun]
    · exact attempt_status_ne_fatal ((exec_loadp_of_ne a c hb).symm.trans h) (replaceZero_ne_fetchOutOfBounds _ _)
        fun _ => ⟨_, rfl, hrun⟩
  | div a b c =>
    by_cases hc : s.getReg c = 0
    · cases (exec_div_of_eq hc).symm.trans h
      simp
    · cases (exec_div_of_ne hc).symm.trans h
      simp [hrun]
  | out a b c =>
    rcases Nat.lt_or_ge 255 (s.getReg c).toNat with hc | hc
    · cases (exec_out_of_lt a b hc).symm.trans h
      simp
    · cases (exec_out_of_le a b hc).symm.trans h
      simp [State.outByte, hrun]
  | unrecognized a b c => cases h; simp
  | cmov a b c =>
    by_cases hc : s.getReg c = 0
    · cases (exec_cmov_of_eq hc).symm.trans h
      simp [hrun]
    · cases (exec_cmov_of_ne hc).symm.trans h
      simp [hrun]
  | inp a b c =>
    rcases hinp : s.inp with _ | ⟨v, rest⟩
    · cases (exec_inp_of_nil a b c hinp).symm.trans h
      simp [hrun]
    · cases (exec_inp_of_cons a b c hinp).symm.trans h
      simp [hrun]
  | add a b c | mul a b c | nand a b c | halt a b c | loadi a imm => cases h; simp [hrun]

/-! ### The step whose fetch fails -/

/-- R163: the fetch comes before the increment. -/
theorem step_of_past_end {s : State} (hrun : s.status = .running) (hpast : s.mem.wordCount 0 ≤ s.pc) :
    step s = .next (s.setStatus (.fatal .fetchOutOfBounds)) := by
  unfold step
  rw [hrun]
  exact attempt_error ((fetchWord_eq s).trans (if_neg (Nat.not_lt.2 hpast)))

/-! ### The bytes of a program -/

/-- R183: four bytes are the digits of a word to the base 256, so their sum is below 2^32. -/
theorem wordOfBytes_toNat (b0 b1 b2 b3 : Byte) : (wordOfBytes b0 b1 b2 b3).toNat =
    b0.toNat * 2 ^ 24 + b1.toNat * 2 ^ 16 + b2.toNat * 2 ^ 8 + b3.toNat := by
  simp only [wordOfBytes, BitVec.toNat_ofNat]
  apply Nat.mod_eq_of_lt
  omega

theorem bytesOfWord_wordOfBytes (b0 b1 b2 b3 : Byte) : bytesOfWord (wordOfBytes b0 b1 b2 b3) = [b0, b1, b2, b3] := by
  simp only [bytesOfWord, List.cons.injEq, ← BitVec.toNat_inj, Codec.fieldBits_toNat, wordOfBytes_toNat]
  refine ⟨?_, ?_, ?_, ?_, trivial⟩ <;> omega

/-- R183: a word is the sum of its bytes, each in its place. -/
theorem toNat_eq_sum_bytes (w : Word) : w.toNat =
    (Codec.fieldBits w 8 24).toNat * 2 ^ 24 + (Codec.fieldBits w 8 16).toNat * 2 ^ 16 +
    (Codec.fieldBits w 8 8).toNat * 2 ^ 8 + (Codec.fieldBits w 8 0).toNat := by
  simp only [Codec.fieldBits_toNat]
  omega

theorem bytesOfProgram_cons (w : Word) (ws : List Word) :
    bytesOfProgram (w :: ws) = bytesOfWord w ++ bytesOfProgram ws :=
  List.flatMap_cons

theorem bytesOfProgram_length (ws : List Word) : (bytesOfProgram ws).length = 4 * ws.length := by
  induction ws with
  | nil => rfl
  | cons w ws ih =>
    rw [bytesOfProgram_cons, List.length_append, ih]
    simp only [bytesOfWord, List.length_cons, List.length_nil]
    omega

/-- R183: byte `4k + j` of a program is byte `j` of its word `k`. -/
theorem bytesOfProgram_getD {ws : List Word} {k j : Nat} (hk : k < ws.length) (hj : j < 4) :
    (bytesOfProgram ws).getD (4 * k + j) 0 = (bytesOfWord (ws.getD k 0)).getD j 0 := by
  induction ws generalizing k with
  | nil => exact absurd hk (Nat.not_lt_zero k)
  | cons w ws ih =>
    rw [bytesOfProgram_cons]
    cases k with
    | zero => rw [Nat.mul_zero, Nat.zero_add, List.getD_append _ _ _ _ hj, List.getD_cons_zero]
    | succ k =>
      have hnext : 4 * (k + 1) + j - (bytesOfWord w).length = 4 * k + j := by
        show 4 * (k + 1) + j - 4 = _
        omega
      rw [List.getD_append_right _ _ _ _ (show 4 ≤ 4 * (k + 1) + j by omega), hnext, List.getD_cons_succ]
      exact ih (Nat.lt_of_succ_lt_succ hk)

/-- R183: everything that reading a program can answer. Four bytes at a time leave none of a length that is a multiple
of 4, and one, two or three of any other. -/
theorem programOfBytes_cases : ∀ bs : List Byte,
    (bs.length % 4 = 0 ∧ ∃ ws, programOfBytes bs = .ok ws ∧ bytesOfProgram ws = bs) ∨
    (bs.length % 4 ≠ 0 ∧ programOfBytes bs = .error .lengthNotMultipleOf4)
  | [] => .inl ⟨rfl, [], rfl, rfl⟩
  | [_] | [_, _] | [_, _, _] => .inr ⟨by simp, rfl⟩
  | b0 :: b1 :: b2 :: b3 :: rest => by
    have hlen : (b0 :: b1 :: b2 :: b3 :: rest).length % 4 = rest.length % 4 := Nat.add_mod_right _ 4
    rw [hlen, programOfBytes]
    rcases programOfBytes_cases rest with ⟨hrest, ws, hok, hbytes⟩ | ⟨hrest, herror⟩
    · refine .inl ⟨hrest, wordOfBytes b0 b1 b2 b3 :: ws, by rw [hok], ?_⟩
      rw [bytesOfProgram_cons, bytesOfWord_wordOfBytes, hbytes]
      rfl
    · exact .inr ⟨hrest, by rw [herror]⟩

end Sys2Proof.Machine
end

section
/-! The statements of the families 60_exceptions and 70_reset_and_hazards. -/

namespace Sys2Proof.Machine

/-- Settles O12: what raises at the step is the fetch, before the increment, or the instruction, after it. -/
theorem fatalErrorsArePrecise : Obligations.FatalErrorsArePrecise := by
  refine ⟨fun i s t cause => exec_eq_setStatus_of_fatal, fun s t cause hrun h ht => ?_⟩
  rcases step_cases h with ⟨hended, -⟩ | ⟨-, -, rfl⟩ | ⟨-, w, -, hexec⟩
  · exact absurd hrun hended
  · cases ht
    exact .inl ⟨rfl, rfl⟩
  · refine .inr ⟨?_, exec_eq_setStatus_of_fatal (s := s.advance) hrun hexec ht⟩
    rintro rfl
    exact exec_status_ne_fetchOutOfBounds (s := s.advance) hrun hexec ht

/-- Settles O6: the failed fetch raises before the increment. -/
theorem fetchPastTheEndIsFatal : Obligations.FetchPastTheEndIsFatal := fun _ => step_of_past_end

/-- Settles O59: a length that is a multiple of 4 gives words whose bytes are the bytes read. -/
theorem programBytesAreBigEndianWords : Obligations.ProgramBytesAreBigEndianWords := by
  intro bs
  rcases programOfBytes_cases bs with ⟨hlen, ws, hok, rfl⟩ | ⟨hlen, herror⟩
  · refine ⟨fun _ => ⟨ws, hok, (bytesOfProgram_length ws).symm, rfl, fun k hk => ?_⟩, absurd hlen⟩
    have hbyte {j : Nat} := bytesOfProgram_getD (j := j) hk
    have hfirst : (bytesOfProgram ws).getD (4 * k) 0 = _ := hbyte (j := 0) (by decide)
    rw [hfirst, hbyte (by decide), hbyte (by decide), hbyte (by decide)]
    exact toNat_eq_sum_bytes _
  · exact ⟨fun h => absurd h hlen, fun _ => herror⟩

end Sys2Proof.Machine
end
